-- ==== Sys2Proof/Word.lean ====
section
/-! DEFINITION. The word types of the Zenith VM core (spec 00_scope R7, R8): bytes, 64-bit
words, and the 32 register numbers. -/

namespace Sys2Proof

/-- A byte: 8 bits (00_scope R8). -/
abbrev Byte := BitVec 8

/-- The width of a general register, of `pc` and of `int_vector`: `XLEN` = 64 (00_scope R7). -/
abbrev Word := BitVec 64

/-- A register number, 0 to 31 (10_state R21). -/
abbrev Reg := Fin 32

/-- The instruction length `ILEN` in bytes (00_scope R7, 30_encoding R90). -/
abbrev instrBytes : Nat := 8

end Sys2Proof
end

