-- ==== Sys2Proof/Config.lean ====
section
/-! DEFINITION. The parameters of the core (spec 00_scope R7), its capability descriptor
(10_state R35 to R38) and its opcode map (30_encoding R106). A model state carries one `Config`,
which no step changes (log entry 2). -/

namespace Sys2Proof

/-- The 13 optional-feature flags of the capability descriptor, in the order of 10_state R36. -/
inductive Cap where
  | paging | stack | intDiv | swi | float | fence | condSet | condMove
  | wide64 | wide128 | wide256 | wide512 | multithread
  deriving DecidableEq, Repr

/-- The bit of `CAPS` that holds a flag (10_state R36). -/
def Cap.bit : Cap → Nat
  | .paging => 0
  | .stack => 1
  | .intDiv => 2
  | .swi => 3
  | .float => 4
  | .fence => 5
  | .condSet => 6
  | .condMove => 7
  | .wide64 => 8
  | .wide128 => 9
  | .wide256 => 10
  | .wide512 => 11
  | .multithread => 12

/-- The capability set `CAPS`, 13 bits (10_state R36). -/
abbrev Caps := BitVec 13

/-- Whether a flag is set in `CAPS` (10_state R36, R37). -/
def Caps.has (caps : Caps) (c : Cap) : Bool := caps.getLsbD c.bit

/-- The values of the parameter `ALS_OVERSHIFT`: what an arithmetic left shift by 64 or more
gives (00_scope R7, 41_bitwise R164). -/
inductive AlsOvershift where
  | signFill
  | zero
  deriving DecidableEq, Repr

/-- The values of the parameter `UNKNOWN_OPCODE`: what an unassigned opcode does (00_scope R7,
93_implementation_defined U1). -/
inductive UnknownOpcode where
  | nop
  | fault
  deriving DecidableEq, Repr

/-- The instructions by name: the mnemonics of the opcode map (30_encoding R108, R109). -/
inductive Mnemonic where
  -- bitwise group (41_bitwise)
  | and | andi | xor | xori | or | ori | not | cnt | lls | llsi | lrs | lrsi | als | alsi | ars
  | arsi
  -- arithmetic group (42_arithmetic)
  | add | addi | sub | subi | umul | umuli | smul | smuli | udiv | udivi | sdiv | sdivi
  -- memory and control-flow group (43_memory_control)
  | ldb | ldh | ldw | ldd | stb | sth | stw | std | jal | jalr | je | jne | jgu | jgs | jleu
  | jles
  -- conditional set, immediate, trap and I/O group (44_set_imm_trap_io)
  | setgu | setgui | setgs | setgsi | setleu | setleui | setles | setlesi | lui | auipc | pcall
  | pbreak | outb | outw | inb | inw | halt
  deriving DecidableEq, Repr

/-- The parameter `OPC`: the opcode number of each mnemonic (00_scope R7, 30_encoding R106), as rows
of an opcode and the mnemonic it is given to. A mnemonic without a row has no opcode, and an opcode
without one is unassigned. This hardware's value is the table of R108, `OpcodeMap.standard`. -/
abbrev OpcodeMap := List (Byte × Mnemonic)

/-- The parameters of the step relation (00_scope R7, R13): constants of one machine. -/
structure Config where
  /-- `MEM_SIZE`, the size of the memory buffer in bytes (OPEN in R7). -/
  memSize : Nat
  /-- `CAPS` of the capability descriptor (10_state R36). -/
  caps : Caps
  /-- `INT_COUNT` of the capability descriptor (10_state R38, OPEN in R7). -/
  intCount : Word
  /-- `STATUS_REG`, the caller-visible status register (10_state R24). -/
  statusReg : Reg
  /-- `ALS_OVERSHIFT` (41_bitwise R164). -/
  alsOvershift : AlsOvershift
  /-- `OPC` (30_encoding R106, R108). -/
  opc : OpcodeMap
  /-- `UNKNOWN_OPCODE` (00_scope R7). -/
  unknownOpcode : UnknownOpcode
  deriving DecidableEq, Repr

end Sys2Proof
end

