-- ==== Sys2Proof/Machine/Alu.lean ====
section
/-! DEFINITION. The arithmetic and shift units (spec 41_bitwise, 42_arithmetic). The R and S forms
of an operation share one unit (40_fetch_decode_dispatch R135); each is a function of the first
operand `a` and the second operand `b`. -/

namespace Sys2Proof.Machine

/-- The number of 1 bits among the low `n` bits of `a`. -/
def onesBelow (a : Word) : Nat → Nat
  | 0 => 0
  | n + 1 => onesBelow a n + (a.getLsbD n).toNat

/-- `popcount`, 0 to 64 (00_scope R9, 41_bitwise R158). -/
def aluCnt (a : Word) : Word := BitVec.ofNat 64 (onesBelow a 64)

/-- The all-ones or all-zero pattern of the sign bit (41_bitwise R164, R166). -/
def signPattern (a : Word) : Word := if a.getLsbD 63 then BitVec.allOnes 64 else 0

/-- Logical left shift; the amount is the whole of `b`, unsigned (41_bitwise R159, R160). -/
def aluLls (a b : Word) : Word := if b.toNat ≥ 64 then 0 else BitVec.ofNat 64 (a.toNat * 2 ^ b.toNat)

/-- Logical right shift (41_bitwise R162). -/
def aluLrs (a b : Word) : Word := if b.toNat ≥ 64 then 0 else BitVec.ofNat 64 (a.toNat / 2 ^ b.toNat)

/-- Arithmetic left shift: below 64 the bits of the logical one; from 64 up the sign pattern, or
zero, as `ALS_OVERSHIFT` says (41_bitwise R164). -/
def aluAls (overshift : AlsOvershift) (a b : Word) : Word :=
  if b.toNat ≥ 64 then
    match overshift with
    | .signFill => signPattern a
    | .zero => 0
  else aluLls a b

/-- Arithmetic right shift: the floor of the signed quotient by a power of two (41_bitwise R166). -/
def aluArs (a b : Word) : Word :=
  if b.toNat ≥ 64 then signPattern a else BitVec.ofInt 64 (a.toInt / (2 ^ b.toNat : Nat))

/-- Sum modulo 2^64 (42_arithmetic R181). -/
def aluAdd (a b : Word) : Word := BitVec.ofNat 64 (a.toNat + b.toNat)

/-- Difference modulo 2^64 (42_arithmetic R183). -/
def aluSub (a b : Word) : Word := BitVec.ofInt 64 ((a.toNat : Int) - b.toNat)

/-- The low 64 bits of the unsigned product (42_arithmetic R185). -/
def aluUmul (a b : Word) : Word := BitVec.ofNat 64 (a.toNat * b.toNat)

/-- The low 64 bits of the signed product (42_arithmetic R187). -/
def aluSmul (a b : Word) : Word := BitVec.ofInt 64 (a.toInt * b.toInt)

/-- Unsigned quotient of a non-zero divisor (42_arithmetic R190). -/
def aluUdiv (a b : Word) : Word := BitVec.ofNat 64 (a.toNat / b.toNat)

/-- Signed quotient of a non-zero divisor, rounded toward zero, modulo 2^64 (42_arithmetic R192). -/
def aluSdiv (a b : Word) : Word := BitVec.ofInt 64 (Int.tdiv a.toInt b.toInt)

end Sys2Proof.Machine
end

