-- ==== Sys2Proof/Syntax.lean ====
section
/-! DEFINITION. The instructions: one constructor per row of the opcode map (spec 30_encoding
R108). Operands stand in the order of the assembler's text (R117), and are the fields the
instruction has in the word: register numbers, the 46-bit immediate of the S-shape (R93), the
51-bit immediate of the L-shape (R94). A field the decoder ignores is no operand (R113), but for
the port instructions, whose assembler text has all three (R117, log entry 9). -/

namespace Sys2Proof

/-- The instruction set Zenith-64 (00_scope R2): 61 instructions (30_encoding R108). -/
inductive Instr where
  -- bitwise group (41_bitwise)
  /-- `and rd, r1, r2`: R-shape, opcode 0x00, rule R151. -/
  | and (rd r1 r2 : Reg)
  /-- `andi rd, r1, imm`: S-shape, opcode 0x01, rule R152. -/
  | andi (rd r1 : Reg) (imm : BitVec 46)
  /-- `xor rd, r1, r2`: R-shape, opcode 0x02, rule R153. -/
  | xor (rd r1 r2 : Reg)
  /-- `xori rd, r1, imm`: S-shape, opcode 0x03, rule R154. -/
  | xori (rd r1 : Reg) (imm : BitVec 46)
  /-- `or rd, r1, r2`: R-shape, opcode 0x04, rule R155. -/
  | or (rd r1 r2 : Reg)
  /-- `ori rd, r1, imm`: S-shape, opcode 0x05, rule R156. -/
  | ori (rd r1 : Reg) (imm : BitVec 46)
  /-- `not rd, r1`: R-shape, opcode 0x06, rule R157. -/
  | not (rd r1 : Reg)
  /-- `cnt rd, r1`: R-shape, opcode 0x07, rule R158. -/
  | cnt (rd r1 : Reg)
  /-- `lls rd, r1, r2`: R-shape, opcode 0x08, rule R160. -/
  | lls (rd r1 r2 : Reg)
  /-- `llsi rd, r1, imm`: S-shape, opcode 0x09, rule R161. -/
  | llsi (rd r1 : Reg) (imm : BitVec 46)
  /-- `lrs rd, r1, r2`: R-shape, opcode 0x0A, rule R162. -/
  | lrs (rd r1 r2 : Reg)
  /-- `lrsi rd, r1, imm`: S-shape, opcode 0x0B, rule R163. -/
  | lrsi (rd r1 : Reg) (imm : BitVec 46)
  /-- `als rd, r1, r2`: R-shape, opcode 0x0C, rule R164. -/
  | als (rd r1 r2 : Reg)
  /-- `alsi rd, r1, imm`: S-shape, opcode 0x0D, rule R165. -/
  | alsi (rd r1 : Reg) (imm : BitVec 46)
  /-- `ars rd, r1, r2`: R-shape, opcode 0x0E, rule R166. -/
  | ars (rd r1 r2 : Reg)
  /-- `arsi rd, r1, imm`: S-shape, opcode 0x0F, rule R167. -/
  | arsi (rd r1 : Reg) (imm : BitVec 46)
  -- arithmetic group (42_arithmetic)
  /-- `add rd, r1, r2`: R-shape, opcode 0x10, rule R181. -/
  | add (rd r1 r2 : Reg)
  /-- `addi rd, r1, imm`: S-shape, opcode 0x11, rule R182. -/
  | addi (rd r1 : Reg) (imm : BitVec 46)
  /-- `sub rd, r1, r2`: R-shape, opcode 0x12, rule R183. -/
  | sub (rd r1 r2 : Reg)
  /-- `subi rd, r1, imm`: S-shape, opcode 0x13, rule R184. -/
  | subi (rd r1 : Reg) (imm : BitVec 46)
  /-- `umul rd, r1, r2`: R-shape, opcode 0x14, rule R185. -/
  | umul (rd r1 r2 : Reg)
  /-- `umuli rd, r1, imm`: S-shape, opcode 0x15, rule R186. -/
  | umuli (rd r1 : Reg) (imm : BitVec 46)
  /-- `smul rd, r1, r2`: R-shape, opcode 0x16, rule R187. -/
  | smul (rd r1 r2 : Reg)
  /-- `smuli rd, r1, imm`: S-shape, opcode 0x17, rule R188. -/
  | smuli (rd r1 : Reg) (imm : BitVec 46)
  /-- `udiv rd, r1, r2`: R-shape, opcode 0x18, rule R190. -/
  | udiv (rd r1 r2 : Reg)
  /-- `udivi rd, r1, imm`: S-shape, opcode 0x19, rule R191. -/
  | udivi (rd r1 : Reg) (imm : BitVec 46)
  /-- `sdiv rd, r1, r2`: R-shape, opcode 0x1A, rule R192. -/
  | sdiv (rd r1 r2 : Reg)
  /-- `sdivi rd, r1, imm`: S-shape, opcode 0x1B, rule R193. -/
  | sdivi (rd r1 : Reg) (imm : BitVec 46)
  -- memory and control-flow group (43_memory_control)
  /-- `ldb rd, r1, imm`: S-shape, opcode 0x20, rule R210. -/
  | ldb (rd r1 : Reg) (imm : BitVec 46)
  /-- `ldh rd, r1, imm`: S-shape, opcode 0x21, rule R211. -/
  | ldh (rd r1 : Reg) (imm : BitVec 46)
  /-- `ldw rd, r1, imm`: S-shape, opcode 0x22, rule R212. -/
  | ldw (rd r1 : Reg) (imm : BitVec 46)
  /-- `ldd rd, r1, imm`: S-shape, opcode 0x23, rule R213. -/
  | ldd (rd r1 : Reg) (imm : BitVec 46)
  /-- `stb rd, r1, imm`: S-shape, opcode 0x24, rule R214. -/
  | stb (rd r1 : Reg) (imm : BitVec 46)
  /-- `sth rd, r1, imm`: S-shape, opcode 0x25, rule R215. -/
  | sth (rd r1 : Reg) (imm : BitVec 46)
  /-- `stw rd, r1, imm`: S-shape, opcode 0x26, rule R216. -/
  | stw (rd r1 : Reg) (imm : BitVec 46)
  /-- `std rd, r1, imm`: S-shape, opcode 0x27, rule R217. -/
  | std (rd r1 : Reg) (imm : BitVec 46)
  /-- `jal r, off`: L-shape, opcode 0x28, rule R220. -/
  | jal (r1 : Reg) (off : BitVec 51)
  /-- `jalr rd, r1, imm`: S-shape, opcode 0x29, rule R221. -/
  | jalr (rd r1 : Reg) (imm : BitVec 46)
  /-- `je a, b, off`: S-shape, opcode 0x2A, rule R223. -/
  | je (a b : Reg) (off : BitVec 46)
  /-- `jne a, b, off`: S-shape, opcode 0x2B, rule R224. -/
  | jne (a b : Reg) (off : BitVec 46)
  /-- `jgu a, b, off`: S-shape, opcode 0x2C, rule R225. -/
  | jgu (a b : Reg) (off : BitVec 46)
  /-- `jgs a, b, off`: S-shape, opcode 0x2D, rule R226. -/
  | jgs (a b : Reg) (off : BitVec 46)
  /-- `jleu a, b, off`: S-shape, opcode 0x2E, rule R227. -/
  | jleu (a b : Reg) (off : BitVec 46)
  /-- `jles a, b, off`: S-shape, opcode 0x2F, rule R228. -/
  | jles (a b : Reg) (off : BitVec 46)
  -- conditional set, immediate, trap and I/O group, and halt (44_set_imm_trap_io)
  /-- `setgu rd, r1, r2`: R-shape, opcode 0x30, rule R250. -/
  | setgu (rd r1 r2 : Reg)
  /-- `setgui rd, r1, imm`: S-shape, opcode 0x31, rule R251. -/
  | setgui (rd r1 : Reg) (imm : BitVec 46)
  /-- `setgs rd, r1, r2`: R-shape, opcode 0x32, rule R252. -/
  | setgs (rd r1 r2 : Reg)
  /-- `setgsi rd, r1, imm`: S-shape, opcode 0x33, rule R253. -/
  | setgsi (rd r1 : Reg) (imm : BitVec 46)
  /-- `setleu rd, r1, r2`: R-shape, opcode 0x34, rule R254. -/
  | setleu (rd r1 r2 : Reg)
  /-- `setleui rd, r1, imm`: S-shape, opcode 0x35, rule R255. -/
  | setleui (rd r1 : Reg) (imm : BitVec 46)
  /-- `setles rd, r1, r2`: R-shape, opcode 0x36, rule R256. -/
  | setles (rd r1 r2 : Reg)
  /-- `setlesi rd, r1, imm`: S-shape, opcode 0x37, rule R257. -/
  | setlesi (rd r1 : Reg) (imm : BitVec 46)
  /-- `lui r, imm`: L-shape, opcode 0x38, rule R258. -/
  | lui (r1 : Reg) (imm : BitVec 51)
  /-- `auipc r, imm`: L-shape, opcode 0x39, rule R259. -/
  | auipc (r1 : Reg) (imm : BitVec 51)
  /-- `pcall n`: L-shape, opcode 0x3A, rule R260. -/
  | pcall (imm : BitVec 51)
  /-- `pbreak`: L-shape, opcode 0x3B, rule R265. -/
  | pbreak
  /-- `outb rd, r1, imm`: S-shape, opcode 0x3C, rule R270. -/
  | outb (rd r1 : Reg) (imm : BitVec 46)
  /-- `outw rd, r1, imm`: S-shape, opcode 0x3D, rule R271. -/
  | outw (rd r1 : Reg) (imm : BitVec 46)
  /-- `inb rd, r1, imm`: S-shape, opcode 0x3E, rule R272. -/
  | inb (rd r1 : Reg) (imm : BitVec 46)
  /-- `inw rd, r1, imm`: S-shape, opcode 0x3F, rule R273. -/
  | inw (rd r1 : Reg) (imm : BitVec 46)
  /-- `halt`: L-shape, opcode 0xFF, rule R275. -/
  | halt
  deriving DecidableEq, Repr

end Sys2Proof
end

