-- ==== Sys2Proof/Decode.lean ====
section
/-! DEFINITION. The instruction codec (spec 30_encoding): the three shapes, the opcode map R108,
the decoder, the capability gate of the dispatch table (40_fetch_decode_dispatch R134), and the
encoder. -/

namespace Sys2Proof

/-! ## Fields of a word (R92 to R94, R103) -/

/-- The register number a 5-bit field names (10_state R21). -/
def Reg.ofBits (b : BitVec 5) : Reg := ⟨b.toNat, b.isLt⟩

/-- The 5-bit field that names a register. -/
def Reg.bits (r : Reg) : BitVec 5 := BitVec.ofNat 5 r.val

/-- The opcode, bits 7:0, at the same place in every shape (R90, R103). -/
def opOf (w : Word) : Byte := w.extractLsb' 0 8

/-- The field `r1`, bits 12:8 (R103). -/
def r1Of (w : Word) : Reg := Reg.ofBits (w.extractLsb' 8 5)

/-- The field `rd`, bits 17:13, of the R- and S-shapes (R103). -/
def rdOf (w : Word) : Reg := Reg.ofBits (w.extractLsb' 13 5)

/-- The field `r2`, bits 22:18, of the R-shape (R103). -/
def r2Of (w : Word) : Reg := Reg.ofBits (w.extractLsb' 18 5)

/-- The 46-bit immediate, bits 63:18, of the S-shape (R103). -/
def imm46Of (w : Word) : BitVec 46 := w.extractLsb' 18 46

/-- The 51-bit immediate, bits 63:13, of the L-shape (R103). -/
def imm51Of (w : Word) : BitVec 51 := w.extractLsb' 13 51

/-! ## The codec (R99 to R102) -/

/-- The R-shape word: bits 63:23 are zero. The arguments stand in the order of R99, which is not
the order of the fields in the word (C8). -/
def encodeR (opcode : Byte) (r1 r2 rd : Reg) : Word :=
  opcode.setWidth 64 ||| (Reg.bits r1).setWidth 64 <<< 8 ||| (Reg.bits rd).setWidth 64 <<< 13
    ||| (Reg.bits r2).setWidth 64 <<< 18

/-- The S-shape word (R100). -/
def encodeS (opcode : Byte) (r1 rd : Reg) (imm46 : BitVec 46) : Word :=
  opcode.setWidth 64 ||| (Reg.bits r1).setWidth 64 <<< 8 ||| (Reg.bits rd).setWidth 64 <<< 13
    ||| imm46.setWidth 64 <<< 18

/-- The L-shape word (R101). -/
def encodeL (opcode : Byte) (r1 : Reg) (imm51 : BitVec 51) : Word :=
  opcode.setWidth 64 ||| (Reg.bits r1).setWidth 64 <<< 8 ||| imm51.setWidth 64 <<< 13

/-- `encode_r` on numbers of any size: each argument is truncated to its field (R99, R102). -/
def encodeRNat (opcode r1 r2 rd : Nat) : Word :=
  encodeR (BitVec.ofNat 8 opcode) (Reg.ofBits (BitVec.ofNat 5 r1)) (Reg.ofBits (BitVec.ofNat 5 r2))
    (Reg.ofBits (BitVec.ofNat 5 rd))

/-- `encode_s` on numbers of any size: each argument is truncated to its field (R100, R102). -/
def encodeSNat (opcode r1 rd : Nat) (imm46 : Int) : Word :=
  encodeS (BitVec.ofNat 8 opcode) (Reg.ofBits (BitVec.ofNat 5 r1)) (Reg.ofBits (BitVec.ofNat 5 rd))
    (BitVec.ofInt 46 imm46)

/-- `encode_l` on numbers of any size: each argument is truncated to its field (R101, R102). -/
def encodeLNat (opcode r1 : Nat) (imm51 : Int) : Word :=
  encodeL (BitVec.ofNat 8 opcode) (Reg.ofBits (BitVec.ofNat 5 r1)) (BitVec.ofInt 51 imm51)

/-! ## The opcode map (R108) -/

/-- The three shapes (R90). -/
inductive Shape where
  | r | s | l
  deriving DecidableEq, Repr

/-- A row of R108: the opcode, the shape, and the capability flag that must be set for the opcode to
be present, `none` for "base" (10_state R36). -/
structure OpcodeRow where
  opcode : Byte
  shape : Shape
  cap : Option Cap
  deriving DecidableEq, Repr

/-- The table of R108. -/
def Mnemonic.row : Mnemonic → OpcodeRow
  | .and => ⟨0x00, .r, none⟩
  | .andi => ⟨0x01, .s, none⟩
  | .xor => ⟨0x02, .r, none⟩
  | .xori => ⟨0x03, .s, none⟩
  | .or => ⟨0x04, .r, none⟩
  | .ori => ⟨0x05, .s, none⟩
  | .not => ⟨0x06, .r, none⟩
  | .cnt => ⟨0x07, .r, none⟩
  | .lls => ⟨0x08, .r, none⟩
  | .llsi => ⟨0x09, .s, none⟩
  | .lrs => ⟨0x0A, .r, none⟩
  | .lrsi => ⟨0x0B, .s, none⟩
  | .als => ⟨0x0C, .r, none⟩
  | .alsi => ⟨0x0D, .s, none⟩
  | .ars => ⟨0x0E, .r, none⟩
  | .arsi => ⟨0x0F, .s, none⟩
  | .add => ⟨0x10, .r, none⟩
  | .addi => ⟨0x11, .s, none⟩
  | .sub => ⟨0x12, .r, none⟩
  | .subi => ⟨0x13, .s, none⟩
  | .umul => ⟨0x14, .r, none⟩
  | .umuli => ⟨0x15, .s, none⟩
  | .smul => ⟨0x16, .r, none⟩
  | .smuli => ⟨0x17, .s, none⟩
  | .udiv => ⟨0x18, .r, some .intDiv⟩
  | .udivi => ⟨0x19, .s, some .intDiv⟩
  | .sdiv => ⟨0x1A, .r, some .intDiv⟩
  | .sdivi => ⟨0x1B, .s, some .intDiv⟩
  | .ldb => ⟨0x20, .s, none⟩
  | .ldh => ⟨0x21, .s, none⟩
  | .ldw => ⟨0x22, .s, none⟩
  | .ldd => ⟨0x23, .s, none⟩
  | .stb => ⟨0x24, .s, none⟩
  | .sth => ⟨0x25, .s, none⟩
  | .stw => ⟨0x26, .s, none⟩
  | .std => ⟨0x27, .s, none⟩
  | .jal => ⟨0x28, .l, none⟩
  | .jalr => ⟨0x29, .s, none⟩
  | .je => ⟨0x2A, .s, none⟩
  | .jne => ⟨0x2B, .s, none⟩
  | .jgu => ⟨0x2C, .s, none⟩
  | .jgs => ⟨0x2D, .s, none⟩
  | .jleu => ⟨0x2E, .s, none⟩
  | .jles => ⟨0x2F, .s, none⟩
  | .setgu => ⟨0x30, .r, some .condSet⟩
  | .setgui => ⟨0x31, .s, some .condSet⟩
  | .setgs => ⟨0x32, .r, some .condSet⟩
  | .setgsi => ⟨0x33, .s, some .condSet⟩
  | .setleu => ⟨0x34, .r, some .condSet⟩
  | .setleui => ⟨0x35, .s, some .condSet⟩
  | .setles => ⟨0x36, .r, some .condSet⟩
  | .setlesi => ⟨0x37, .s, some .condSet⟩
  | .lui => ⟨0x38, .l, none⟩
  | .auipc => ⟨0x39, .l, none⟩
  | .pcall => ⟨0x3A, .l, some .swi⟩
  | .pbreak => ⟨0x3B, .l, none⟩
  | .outb => ⟨0x3C, .s, none⟩
  | .outw => ⟨0x3D, .s, none⟩
  | .inb => ⟨0x3E, .s, none⟩
  | .inw => ⟨0x3F, .s, none⟩
  | .halt => ⟨0xFF, .l, none⟩

/-- The mnemonics of 41_bitwise and 42_arithmetic, in the order of R108. -/
def Mnemonic.bitwiseAndArithmetic : List Mnemonic :=
  [.and, .andi, .xor, .xori, .or, .ori, .not, .cnt, .lls, .llsi, .lrs, .lrsi, .als, .alsi, .ars,
    .arsi, .add, .addi, .sub, .subi, .umul, .umuli, .smul, .smuli, .udiv, .udivi, .sdiv, .sdivi]

/-- The mnemonics of 43_memory_control, in the order of R108. -/
def Mnemonic.memoryAndControl : List Mnemonic :=
  [.ldb, .ldh, .ldw, .ldd, .stb, .sth, .stw, .std, .jal, .jalr, .je, .jne, .jgu, .jgs, .jleu,
    .jles]

/-- The mnemonics of 44_set_imm_trap_io, in the order of R108. -/
def Mnemonic.setImmTrapIo : List Mnemonic :=
  [.setgu, .setgui, .setgs, .setgsi, .setleu, .setleui, .setles, .setlesi, .lui, .auipc, .pcall,
    .pbreak, .outb, .outw, .inb, .inw, .halt]

/-- The mnemonics in the order of R108. -/
def Mnemonic.all : List Mnemonic :=
  Mnemonic.bitwiseAndArithmetic ++ (Mnemonic.memoryAndControl ++ Mnemonic.setImmTrapIo)

/-- The value of `OPC` for this hardware: the opcodes of R108 (the spec's decision D1). -/
def OpcodeMap.standard : OpcodeMap := Mnemonic.all.map fun m => (m.row.opcode, m)

/-- The mnemonic an opcode is given to. -/
def OpcodeMap.lookup : OpcodeMap → Byte → Option Mnemonic
  | [], _ => none
  | r :: opc, op => if r.1 = op then some r.2 else OpcodeMap.lookup opc op

/-- The opcode of a mnemonic. -/
def OpcodeMap.opcodeOf : OpcodeMap → Mnemonic → Option Byte
  | [], _ => none
  | r :: opc, m => if r.2 = m then some r.1 else OpcodeMap.opcodeOf opc m

/-- No opcode is given to two mnemonics, and no mnemonic has two opcodes. -/
def OpcodeMap.valid (opc : OpcodeMap) : Bool :=
  decide (opc.map Prod.fst).Nodup && decide (opc.map Prod.snd).Nodup

/-! ## The decoder (R108, R111 to R113) -/

/-- What a 64-bit word decodes to: an instruction, or an opcode that has none (R112). -/
inductive Decoded where
  /-- An assigned opcode. -/
  | instr (i : Instr)
  /-- An unassigned opcode, by its number. -/
  | unassigned (op : Byte)
  deriving DecidableEq, Repr

/-- The instruction a word is under a mnemonic: its operands are the fields of the mnemonic's shape
(R95), and bits it does not use are ignored (R113). -/
def Mnemonic.read (m : Mnemonic) (w : Word) : Instr :=
  match m with
  | .and => .and (rdOf w) (r1Of w) (r2Of w)
  | .andi => .andi (rdOf w) (r1Of w) (imm46Of w)
  | .xor => .xor (rdOf w) (r1Of w) (r2Of w)
  | .xori => .xori (rdOf w) (r1Of w) (imm46Of w)
  | .or => .or (rdOf w) (r1Of w) (r2Of w)
  | .ori => .ori (rdOf w) (r1Of w) (imm46Of w)
  | .not => .not (rdOf w) (r1Of w)
  | .cnt => .cnt (rdOf w) (r1Of w)
  | .lls => .lls (rdOf w) (r1Of w) (r2Of w)
  | .llsi => .llsi (rdOf w) (r1Of w) (imm46Of w)
  | .lrs => .lrs (rdOf w) (r1Of w) (r2Of w)
  | .lrsi => .lrsi (rdOf w) (r1Of w) (imm46Of w)
  | .als => .als (rdOf w) (r1Of w) (r2Of w)
  | .alsi => .alsi (rdOf w) (r1Of w) (imm46Of w)
  | .ars => .ars (rdOf w) (r1Of w) (r2Of w)
  | .arsi => .arsi (rdOf w) (r1Of w) (imm46Of w)
  | .add => .add (rdOf w) (r1Of w) (r2Of w)
  | .addi => .addi (rdOf w) (r1Of w) (imm46Of w)
  | .sub => .sub (rdOf w) (r1Of w) (r2Of w)
  | .subi => .subi (rdOf w) (r1Of w) (imm46Of w)
  | .umul => .umul (rdOf w) (r1Of w) (r2Of w)
  | .umuli => .umuli (rdOf w) (r1Of w) (imm46Of w)
  | .smul => .smul (rdOf w) (r1Of w) (r2Of w)
  | .smuli => .smuli (rdOf w) (r1Of w) (imm46Of w)
  | .udiv => .udiv (rdOf w) (r1Of w) (r2Of w)
  | .udivi => .udivi (rdOf w) (r1Of w) (imm46Of w)
  | .sdiv => .sdiv (rdOf w) (r1Of w) (r2Of w)
  | .sdivi => .sdivi (rdOf w) (r1Of w) (imm46Of w)
  | .ldb => .ldb (rdOf w) (r1Of w) (imm46Of w)
  | .ldh => .ldh (rdOf w) (r1Of w) (imm46Of w)
  | .ldw => .ldw (rdOf w) (r1Of w) (imm46Of w)
  | .ldd => .ldd (rdOf w) (r1Of w) (imm46Of w)
  | .stb => .stb (rdOf w) (r1Of w) (imm46Of w)
  | .sth => .sth (rdOf w) (r1Of w) (imm46Of w)
  | .stw => .stw (rdOf w) (r1Of w) (imm46Of w)
  | .std => .std (rdOf w) (r1Of w) (imm46Of w)
  | .jal => .jal (r1Of w) (imm51Of w)
  | .jalr => .jalr (rdOf w) (r1Of w) (imm46Of w)
  | .je => .je (r1Of w) (rdOf w) (imm46Of w)
  | .jne => .jne (r1Of w) (rdOf w) (imm46Of w)
  | .jgu => .jgu (r1Of w) (rdOf w) (imm46Of w)
  | .jgs => .jgs (r1Of w) (rdOf w) (imm46Of w)
  | .jleu => .jleu (r1Of w) (rdOf w) (imm46Of w)
  | .jles => .jles (r1Of w) (rdOf w) (imm46Of w)
  | .setgu => .setgu (rdOf w) (r1Of w) (r2Of w)
  | .setgui => .setgui (rdOf w) (r1Of w) (imm46Of w)
  | .setgs => .setgs (rdOf w) (r1Of w) (r2Of w)
  | .setgsi => .setgsi (rdOf w) (r1Of w) (imm46Of w)
  | .setleu => .setleu (rdOf w) (r1Of w) (r2Of w)
  | .setleui => .setleui (rdOf w) (r1Of w) (imm46Of w)
  | .setles => .setles (rdOf w) (r1Of w) (r2Of w)
  | .setlesi => .setlesi (rdOf w) (r1Of w) (imm46Of w)
  | .lui => .lui (r1Of w) (imm51Of w)
  | .auipc => .auipc (r1Of w) (imm51Of w)
  | .pcall => .pcall (imm51Of w)
  | .pbreak => .pbreak
  | .outb => .outb (rdOf w) (r1Of w) (imm46Of w)
  | .outw => .outw (rdOf w) (r1Of w) (imm46Of w)
  | .inb => .inb (rdOf w) (r1Of w) (imm46Of w)
  | .inw => .inw (rdOf w) (r1Of w) (imm46Of w)
  | .halt => .halt

/-- The decoder on an opcode map, every capability taken as present (R108, R112). -/
def decodeWith (opc : OpcodeMap) (w : Word) : Decoded :=
  match opc.lookup (opOf w) with
  | some m => .instr (m.read w)
  | none => .unassigned (opOf w)

/-- The decoder on the map of R108. -/
def decodeWord (w : Word) : Decoded := decodeWith OpcodeMap.standard w

/-- The mnemonic of an instruction. -/
def Instr.mnemonic : Instr → Mnemonic
  | .and _ _ _ => .and
  | .andi _ _ _ => .andi
  | .xor _ _ _ => .xor
  | .xori _ _ _ => .xori
  | .or _ _ _ => .or
  | .ori _ _ _ => .ori
  | .not _ _ => .not
  | .cnt _ _ => .cnt
  | .lls _ _ _ => .lls
  | .llsi _ _ _ => .llsi
  | .lrs _ _ _ => .lrs
  | .lrsi _ _ _ => .lrsi
  | .als _ _ _ => .als
  | .alsi _ _ _ => .alsi
  | .ars _ _ _ => .ars
  | .arsi _ _ _ => .arsi
  | .add _ _ _ => .add
  | .addi _ _ _ => .addi
  | .sub _ _ _ => .sub
  | .subi _ _ _ => .subi
  | .umul _ _ _ => .umul
  | .umuli _ _ _ => .umuli
  | .smul _ _ _ => .smul
  | .smuli _ _ _ => .smuli
  | .udiv _ _ _ => .udiv
  | .udivi _ _ _ => .udivi
  | .sdiv _ _ _ => .sdiv
  | .sdivi _ _ _ => .sdivi
  | .ldb _ _ _ => .ldb
  | .ldh _ _ _ => .ldh
  | .ldw _ _ _ => .ldw
  | .ldd _ _ _ => .ldd
  | .stb _ _ _ => .stb
  | .sth _ _ _ => .sth
  | .stw _ _ _ => .stw
  | .std _ _ _ => .std
  | .jal _ _ => .jal
  | .jalr _ _ _ => .jalr
  | .je _ _ _ => .je
  | .jne _ _ _ => .jne
  | .jgu _ _ _ => .jgu
  | .jgs _ _ _ => .jgs
  | .jleu _ _ _ => .jleu
  | .jles _ _ _ => .jles
  | .setgu _ _ _ => .setgu
  | .setgui _ _ _ => .setgui
  | .setgs _ _ _ => .setgs
  | .setgsi _ _ _ => .setgsi
  | .setleu _ _ _ => .setleu
  | .setleui _ _ _ => .setleui
  | .setles _ _ _ => .setles
  | .setlesi _ _ _ => .setlesi
  | .lui _ _ => .lui
  | .auipc _ _ => .auipc
  | .pcall _ => .pcall
  | .pbreak => .pbreak
  | .outb _ _ _ => .outb
  | .outw _ _ _ => .outw
  | .inb _ _ _ => .inb
  | .inw _ _ _ => .inw
  | .halt => .halt

/-- The opcode of an instruction in the map of R108. -/
def Instr.opcode (i : Instr) : Byte := i.mnemonic.row.opcode

/-- The shape of an instruction (R108). -/
def Instr.shape (i : Instr) : Shape := i.mnemonic.row.shape

/-- Whether a mnemonic is present under `CAPS` (10_state R37). -/
def Mnemonic.presentIn (caps : Caps) (m : Mnemonic) : Bool :=
  match m.row.cap with
  | none => true
  | some c => caps.has c

/-- The entry of the table `DISPATCH` for an opcode: the mnemonic that `OPC` gives it, if its
capability flag is set, and `none` for `Unassigned` (40_fetch_decode_dispatch R134, 30_encoding
R112). -/
def dispatchEntry (c : Config) (op : Byte) : Option Mnemonic :=
  match c.opc.lookup op with
  | some m => if m.presentIn c.caps then some m else none
  | none => none

/-- What the dispatch table gives for a word (40_fetch_decode_dispatch R130, R134). -/
def dispatch (c : Config) (w : Word) : Decoded :=
  match dispatchEntry c (opOf w) with
  | some m => .instr (m.read w)
  | none => .unassigned (opOf w)

/-! ## Bytes -/

/-- The `n` low bytes of a number, least significant first (20_memory R61). -/
def bytesLE : Nat → Nat → List Byte
  | 0, _ => []
  | n + 1, v => BitVec.ofNat 8 v :: bytesLE n (v / 256)

/-- The number that bytes spell, least significant first (20_memory R61). -/
def numberLE : List Byte → Nat
  | [] => 0
  | b :: bs => b.toNat + 256 * numberLE bs

/-- A word as it lies in memory (30_encoding R90, 20_memory R62). -/
def bytesOfWord (w : Word) : List Byte := bytesLE instrBytes w.toNat

/-- Why bytes are no instruction. -/
inductive DecodeError where
  /-- Fewer than 8 bytes: the one length of R90 and R115. -/
  | truncated (bytesLeft : Nat)
  /-- An opcode without an instruction (R112). -/
  | unassigned (op : Byte)
  deriving DecidableEq, Repr

/-- The decoder on bytes: the instruction in the first 8 bytes and the bytes after it. -/
def decodeBytes (bs : List Byte) : Except DecodeError (Instr × List Byte) :=
  if bs.length < instrBytes then .error (.truncated bs.length)
  else
    match decodeWord (BitVec.ofNat 64 (numberLE (bs.take instrBytes))) with
    | .instr i => .ok (i, bs.drop instrBytes)
    | .unassigned op => .error (.unassigned op)

/-- The word that is the low `nbits` bits of `w` with zeros above. -/
def tableWord (nbits w : Nat) : Word := BitVec.ofNat 64 (w % 2 ^ nbits)

/-- The instruction the decoder reads from a word given as the opcode table numbers its bits. -/
def decodeTableWord (nbits w : Nat) : Option Instr :=
  match decodeBytes (bytesOfWord (tableWord nbits w)) with
  | .ok (i, _) => some i
  | .error _ => none

/-! ## The encoder -/

/-- The word of an instruction under an opcode, with zero in every bit it does not use (R113,
R117). -/
def encodeFields (op : Byte) : Instr → Word
  | .and rd r1 r2 => encodeR op r1 r2 rd
  | .andi rd r1 imm => encodeS op r1 rd imm
  | .xor rd r1 r2 => encodeR op r1 r2 rd
  | .xori rd r1 imm => encodeS op r1 rd imm
  | .or rd r1 r2 => encodeR op r1 r2 rd
  | .ori rd r1 imm => encodeS op r1 rd imm
  | .not rd r1 => encodeR op r1 0 rd
  | .cnt rd r1 => encodeR op r1 0 rd
  | .lls rd r1 r2 => encodeR op r1 r2 rd
  | .llsi rd r1 imm => encodeS op r1 rd imm
  | .lrs rd r1 r2 => encodeR op r1 r2 rd
  | .lrsi rd r1 imm => encodeS op r1 rd imm
  | .als rd r1 r2 => encodeR op r1 r2 rd
  | .alsi rd r1 imm => encodeS op r1 rd imm
  | .ars rd r1 r2 => encodeR op r1 r2 rd
  | .arsi rd r1 imm => encodeS op r1 rd imm
  | .add rd r1 r2 => encodeR op r1 r2 rd
  | .addi rd r1 imm => encodeS op r1 rd imm
  | .sub rd r1 r2 => encodeR op r1 r2 rd
  | .subi rd r1 imm => encodeS op r1 rd imm
  | .umul rd r1 r2 => encodeR op r1 r2 rd
  | .umuli rd r1 imm => encodeS op r1 rd imm
  | .smul rd r1 r2 => encodeR op r1 r2 rd
  | .smuli rd r1 imm => encodeS op r1 rd imm
  | .udiv rd r1 r2 => encodeR op r1 r2 rd
  | .udivi rd r1 imm => encodeS op r1 rd imm
  | .sdiv rd r1 r2 => encodeR op r1 r2 rd
  | .sdivi rd r1 imm => encodeS op r1 rd imm
  | .ldb rd r1 imm => encodeS op r1 rd imm
  | .ldh rd r1 imm => encodeS op r1 rd imm
  | .ldw rd r1 imm => encodeS op r1 rd imm
  | .ldd rd r1 imm => encodeS op r1 rd imm
  | .stb rd r1 imm => encodeS op r1 rd imm
  | .sth rd r1 imm => encodeS op r1 rd imm
  | .stw rd r1 imm => encodeS op r1 rd imm
  | .std rd r1 imm => encodeS op r1 rd imm
  | .jal r1 off => encodeL op r1 off
  | .jalr rd r1 imm => encodeS op r1 rd imm
  | .je a b off => encodeS op a b off
  | .jne a b off => encodeS op a b off
  | .jgu a b off => encodeS op a b off
  | .jgs a b off => encodeS op a b off
  | .jleu a b off => encodeS op a b off
  | .jles a b off => encodeS op a b off
  | .setgu rd r1 r2 => encodeR op r1 r2 rd
  | .setgui rd r1 imm => encodeS op r1 rd imm
  | .setgs rd r1 r2 => encodeR op r1 r2 rd
  | .setgsi rd r1 imm => encodeS op r1 rd imm
  | .setleu rd r1 r2 => encodeR op r1 r2 rd
  | .setleui rd r1 imm => encodeS op r1 rd imm
  | .setles rd r1 r2 => encodeR op r1 r2 rd
  | .setlesi rd r1 imm => encodeS op r1 rd imm
  | .lui r1 imm => encodeL op r1 imm
  | .auipc r1 imm => encodeL op r1 imm
  | .pcall imm => encodeL op 0 imm
  | .pbreak => encodeL op 0 0
  | .outb rd r1 imm => encodeS op r1 rd imm
  | .outw rd r1 imm => encodeS op r1 rd imm
  | .inb rd r1 imm => encodeS op r1 rd imm
  | .inw rd r1 imm => encodeS op r1 rd imm
  | .halt => encodeL op 0 0

/-- The word of an instruction under an opcode map, if the map gives its mnemonic an opcode. -/
def encodeWith (opc : OpcodeMap) (i : Instr) : Option Word :=
  (opc.opcodeOf i.mnemonic).map fun op => encodeFields op i

/-- The word of an instruction in the map of R108. -/
def encode (i : Instr) : Word := encodeFields i.opcode i

/-- The 8 bytes of an instruction as they lie in memory. -/
def encodeBytes (i : Instr) : List Byte := bytesOfWord (encode i)

/-! ## Display (R105, R109, R116, R117) -/

/-- The disassembly mnemonic (R109). -/
def Mnemonic.text : Mnemonic → String
  | .and => "and"
  | .andi => "andi"
  | .xor => "xor"
  | .xori => "xori"
  | .or => "or"
  | .ori => "ori"
  | .not => "not"
  | .cnt => "cnt"
  | .lls => "lls"
  | .llsi => "llsi"
  | .lrs => "lrs"
  | .lrsi => "lrsi"
  | .als => "als"
  | .alsi => "alsi"
  | .ars => "ars"
  | .arsi => "arsi"
  | .add => "add"
  | .addi => "addi"
  | .sub => "sub"
  | .subi => "subi"
  | .umul => "umul"
  | .umuli => "umuli"
  | .smul => "smul"
  | .smuli => "smuli"
  | .udiv => "udiv"
  | .udivi => "udivi"
  | .sdiv => "sdiv"
  | .sdivi => "sdivi"
  | .ldb => "ldb"
  | .ldh => "ldh"
  | .ldw => "ldw"
  | .ldd => "ldd"
  | .stb => "stb"
  | .sth => "sth"
  | .stw => "stw"
  | .std => "std"
  | .jal => "jal"
  | .jalr => "jalr"
  | .je => "je"
  | .jne => "jne"
  | .jgu => "jgu"
  | .jgs => "jgs"
  | .jleu => "jleu"
  | .jles => "jles"
  | .setgu => "setgu"
  | .setgui => "setgui"
  | .setgs => "setgs"
  | .setgsi => "setgsi"
  | .setleu => "setleu"
  | .setleui => "setleui"
  | .setles => "setles"
  | .setlesi => "setlesi"
  | .lui => "lui"
  | .auipc => "auipc"
  | .pcall => "pcall"
  | .pbreak => "pbreak"
  | .outb => "outb"
  | .outw => "outw"
  | .inb => "inb"
  | .inw => "inw"
  | .halt => "halt"

/-- A register in assembler text: `r` and the decimal index (R116). -/
def regText (r : Reg) : String := "r" ++ toString r.val

/-- An immediate in assembler text: decimal, with a sign when negative (R116). -/
def immText (v : Int) : String := toString v

/-- The operands of an instruction in assembler text, in their order (R117). -/
def Instr.operandTexts : Instr → List String
  | .and rd r1 r2 => [regText rd, regText r1, regText r2]
  | .andi rd r1 imm => [regText rd, regText r1, immText imm.toInt]
  | .xor rd r1 r2 => [regText rd, regText r1, regText r2]
  | .xori rd r1 imm => [regText rd, regText r1, immText imm.toInt]
  | .or rd r1 r2 => [regText rd, regText r1, regText r2]
  | .ori rd r1 imm => [regText rd, regText r1, immText imm.toInt]
  | .not rd r1 => [regText rd, regText r1]
  | .cnt rd r1 => [regText rd, regText r1]
  | .lls rd r1 r2 => [regText rd, regText r1, regText r2]
  | .llsi rd r1 imm => [regText rd, regText r1, immText imm.toInt]
  | .lrs rd r1 r2 => [regText rd, regText r1, regText r2]
  | .lrsi rd r1 imm => [regText rd, regText r1, immText imm.toInt]
  | .als rd r1 r2 => [regText rd, regText r1, regText r2]
  | .alsi rd r1 imm => [regText rd, regText r1, immText imm.toInt]
  | .ars rd r1 r2 => [regText rd, regText r1, regText r2]
  | .arsi rd r1 imm => [regText rd, regText r1, immText imm.toInt]
  | .add rd r1 r2 => [regText rd, regText r1, regText r2]
  | .addi rd r1 imm => [regText rd, regText r1, immText imm.toInt]
  | .sub rd r1 r2 => [regText rd, regText r1, regText r2]
  | .subi rd r1 imm => [regText rd, regText r1, immText imm.toInt]
  | .umul rd r1 r2 => [regText rd, regText r1, regText r2]
  | .umuli rd r1 imm => [regText rd, regText r1, immText imm.toInt]
  | .smul rd r1 r2 => [regText rd, regText r1, regText r2]
  | .smuli rd r1 imm => [regText rd, regText r1, immText imm.toInt]
  | .udiv rd r1 r2 => [regText rd, regText r1, regText r2]
  | .udivi rd r1 imm => [regText rd, regText r1, immText imm.toInt]
  | .sdiv rd r1 r2 => [regText rd, regText r1, regText r2]
  | .sdivi rd r1 imm => [regText rd, regText r1, immText imm.toInt]
  | .ldb rd r1 imm => [regText rd, regText r1, immText imm.toInt]
  | .ldh rd r1 imm => [regText rd, regText r1, immText imm.toInt]
  | .ldw rd r1 imm => [regText rd, regText r1, immText imm.toInt]
  | .ldd rd r1 imm => [regText rd, regText r1, immText imm.toInt]
  | .stb rd r1 imm => [regText rd, regText r1, immText imm.toInt]
  | .sth rd r1 imm => [regText rd, regText r1, immText imm.toInt]
  | .stw rd r1 imm => [regText rd, regText r1, immText imm.toInt]
  | .std rd r1 imm => [regText rd, regText r1, immText imm.toInt]
  | .jal r1 off => [regText r1, immText off.toInt]
  | .jalr rd r1 imm => [regText rd, regText r1, immText imm.toInt]
  | .je a b off => [regText a, regText b, immText off.toInt]
  | .jne a b off => [regText a, regText b, immText off.toInt]
  | .jgu a b off => [regText a, regText b, immText off.toInt]
  | .jgs a b off => [regText a, regText b, immText off.toInt]
  | .jleu a b off => [regText a, regText b, immText off.toInt]
  | .jles a b off => [regText a, regText b, immText off.toInt]
  | .setgu rd r1 r2 => [regText rd, regText r1, regText r2]
  | .setgui rd r1 imm => [regText rd, regText r1, immText imm.toInt]
  | .setgs rd r1 r2 => [regText rd, regText r1, regText r2]
  | .setgsi rd r1 imm => [regText rd, regText r1, immText imm.toInt]
  | .setleu rd r1 r2 => [regText rd, regText r1, regText r2]
  | .setleui rd r1 imm => [regText rd, regText r1, immText imm.toInt]
  | .setles rd r1 r2 => [regText rd, regText r1, regText r2]
  | .setlesi rd r1 imm => [regText rd, regText r1, immText imm.toInt]
  | .lui r1 imm => [regText r1, immText imm.toInt]
  | .auipc r1 imm => [regText r1, immText imm.toInt]
  | .pcall imm => [immText imm.toInt]
  | .pbreak => []
  | .outb rd r1 imm => [regText rd, regText r1, immText imm.toInt]
  | .outw rd r1 imm => [regText rd, regText r1, immText imm.toInt]
  | .inb rd r1 imm => [regText rd, regText r1, immText imm.toInt]
  | .inw rd r1 imm => [regText rd, regText r1, immText imm.toInt]
  | .halt => []

/-- The assembler text of an instruction: the mnemonic, and the operands separated by commas (R116,
R117). -/
def Instr.asmText (i : Instr) : String :=
  match i.operandTexts with
  | [] => i.mnemonic.text
  | o :: os => os.foldl (fun t u => t ++ ", " ++ u) (i.mnemonic.text ++ " " ++ o)

/-- The debugger's view of a word: decoding for display is the decoder of execution (R105). DESIGN
CHOICE (log entry 15): the spec does not say what is shown for a word whose opcode is unassigned or
whose capability flag is 0, and the model shows nothing, as the step executes nothing. -/
def disassemble (c : Config) (w : Word) : Option String :=
  match dispatch c w with
  | .instr i => some i.asmText
  | .unassigned _ => none

end Sys2Proof
end

