-- ==== Sys2Proof/Machine/Hardware.lean ====
section
/-! DEFINITION. The parameters of this hardware (spec 00_scope R7, third column) and the constraints
the spec puts on them. -/

namespace Sys2Proof

/-- `CAPS` of this hardware: `INT_DIV`, `SWI` and `COND_SET` (10_state R37). -/
def Config.hardwareCaps : Caps := 0x004C

/-- This hardware's parameters. The fixed ones are 00_scope R7's third column. DESIGN CHOICE
(log entry 3, unsafe): the OPEN ones, `MEM_SIZE` = 4096 and `INT_COUNT` = 16, are the premises
of the spec's own vectors (95_test_vectors, conventions). -/
def Config.hardware : Config where
  memSize := 4096
  caps := Config.hardwareCaps
  intCount := 16
  statusReg := 30
  alsOvershift := .signFill
  opc := OpcodeMap.standard
  unknownOpcode := .nop

/-- The constraints the spec puts on the parameters: `8 <= MEM_SIZE < 2^64` (00_scope R7, D45),
no flag set but the three this spec describes (93_implementation_defined U10), a legal
`STATUS_REG` (U14), and an opcode map that is a map (30_encoding R106). -/
def Config.valid (c : Config) : Bool :=
  decide (8 ≤ c.memSize) && decide (c.memSize < 2 ^ 64)
    && decide (c.caps &&& ~~~Config.hardwareCaps = 0)
    && decide (c.statusReg ∉ ([0, 2, 28, 29, 31] : List Reg)) && c.opc.valid

end Sys2Proof
end

