-- ==== Sys2Proof/Machine/State.lean ====
section
/-! DEFINITION. The state of the core (spec 10_state R20), as plain data, and its reset. -/

namespace Sys2Proof.Machine

/-- The `kind` of a `BoundsFault` (10_state R41): which access was out of bounds. -/
inductive AccessKind where
  | fetch | load | store | frame | vector
  deriving DecidableEq, Repr

/-- `BoundsFault(kind, addr)` (10_state R41). -/
structure BoundsFault where
  kind : AccessKind
  /-- The address of the failing access. -/
  addr : Word
  deriving DecidableEq, Repr

/-- The memory buffer (10_state R44): its bytes by address, strictly rising, without the entries
that equal what an unlisted address reads as (`Memory.unlisted`). -/
abbrev Memory := List Host.Cell

/-- The state of the core and of its one input (10_state R20, R51). -/
structure State where
  /-- The general registers `x[0] .. x[31]` (R21). -/
  regs : Vector Word 32
  /-- The program counter (R29). -/
  pc : Word
  /-- The interrupt-vector base (R39). -/
  intVector : Word
  /-- The halt flag (R40). -/
  halted : Bool
  /-- The fault record (R41). -/
  fault : Option BoundsFault
  /-- The memory buffer (R44). -/
  mem : Memory
  /-- The capability descriptor and the other constants of the machine (R35, log entry 2). -/
  cfg : Config
  /-- The level of the input `halt_req` at the next step (R51, log entry 5). -/
  haltReq : Bool
  deriving DecidableEq, Repr

/-- The model's faults: outcomes that give no next state. An out-of-bounds access is none of them:
the spec gives the state after it, so it is a next state (60_exceptions R320, log entry 1). -/
inductive Fault where
  /-- Raised by `step` on an unassigned opcode when the parameter `UNKNOWN_OPCODE` has its
  non-default value `fault` (00_scope R7, 93_implementation_defined U1, log entry 8). Safe: the
  run stops where another treatment would go on; this hardware's value is `nop`. -/
  | unassignedOpcode (op : Byte)
  deriving DecidableEq, Repr

/-- The model's refusals. -/
inductive Refusal where
  /-- Raised by an arm of `exec` whose instruction has no meaning yet. Safe. No arm raises it. -/
  | notModelled (mnemonic : String)
  deriving DecidableEq, Repr

/-- The state right after reset (70_reset_and_hazards R351 to R354, R358). DESIGN CHOICE (log
entries 3 and 4, unsafe): the OPEN launch parameters are `ARGC` = 0, the empty `IMAGE` over a
`MEM_INIT` of zeros, and `Config.hardware`'s `MEM_SIZE` and `INT_COUNT`; `Launch.start` gives
the reset for every launch. -/
def State.reset : State where
  regs := Vector.replicate 32 0
  pc := 0
  intVector := 0
  halted := false
  fault := none
  mem := []
  cfg := Config.hardware
  haltReq := false

end Sys2Proof.Machine
end

