-- ==== Sys2Proof/Machine/Ops.lean ====
section
/-! DEFINITION. The named operations every meaning is built from: registers, memory, the bounds
check, the `BoundsFault`, trap dispatch and the introspection call (spec 10_state, 20_memory,
60_exceptions). -/

namespace Sys2Proof.Machine

/-- The outcome of a meaning and of a step. -/
abbrev Result := Host.Outcome State Fault Refusal

/-! ## Memory as data -/

/-- What a byte that no entry lists reads as. DESIGN CHOICE (log entry 4): a zero byte. Every
content of the buffer is one canonical list, so this fixes no content but that of the empty list. -/
def Memory.unlisted : Byte := 0

/-- The byte at an address. -/
def Memory.read : Memory → Nat → Byte
  | [], _ => Memory.unlisted
  | c :: m, a => if a = c.1 then c.2 else if a < c.1 then Memory.unlisted else Memory.read m a

/-- Write one byte. Writing `Memory.unlisted` removes the entry. (Dropping the entries up to `a`
drops nothing from a list in canonical form; it makes the read-after-write law hold of every list.) -/
def Memory.write : Memory → Nat → Byte → Memory
  | [], a, v => if v = Memory.unlisted then [] else [(a, v)]
  | c :: m, a, v =>
    if a < c.1 then
      if v = Memory.unlisted then c :: m else (a, v) :: c :: m
    else if a = c.1 then
      if v = Memory.unlisted then List.dropWhile (fun d => decide (d.1 ≤ a)) m else (a, v) :: m
    else c :: Memory.write m a v

/-- Every entry's address is above `a`, judged by the first entry. -/
def Memory.startsAbove (a : Nat) : Memory → Bool
  | [] => true
  | c :: _ => decide (a < c.1)

/-- The canonical form: addresses strictly rising, no entry equal to `Memory.unlisted`. -/
def Memory.wf : Memory → Bool
  | [] => true
  | c :: m => decide (c.2 ≠ Memory.unlisted) && Memory.startsAbove c.1 m && Memory.wf m

/-- Every entry lies in a buffer of `size` bytes (10_state R44). -/
def Memory.within (size : Nat) (m : Memory) : Bool := m.all fun c => decide (c.1 < size)

/-- The `n` bytes from an address up. -/
def Memory.bytesAt (m : Memory) : Nat → Nat → List Byte
  | _, 0 => []
  | a, n + 1 => Memory.read m a :: Memory.bytesAt m (a + 1) n

/-- Write bytes from an address up. -/
def Memory.writeBytes (m : Memory) : Nat → List Byte → Memory
  | _, [] => m
  | a, b :: bs => Memory.writeBytes (Memory.write m a b) (a + 1) bs

/-- `MemRead`'s value: `n` bytes, little-endian, as an unsigned number (20_memory R61). -/
def Memory.loadLE (m : Memory) (a n : Nat) : Nat := numberLE (Memory.bytesAt m a n)

/-- `MemWrite`'s bytes: the low `8n` bits of `v`, little-endian (20_memory R61). -/
def Memory.storeLE (m : Memory) (a n v : Nat) : Memory := Memory.writeBytes m a (bytesLE n v)

/-- The memory that a list of cells describes, a later cell over an earlier one. -/
def Memory.ofCells (cells : List Host.Cell) : Memory :=
  cells.foldl (fun m c => Memory.write m c.1 c.2) []

/-! ## Registers and the other fields -/

/-- `x[i]` as every rule reads it: `x[0]` reads 0 (00_scope R9, 10_state R22, log entry 7). -/
def State.readReg (s : State) (r : Reg) : Word := if r = 0 then 0 else s.regs[r.val]

/-- `x[i] <- v` (00_scope R9). A write to register 0 is not suppressed; `State.clearZero` undoes it
at the end of the step (10_state R22). -/
def State.writeReg (s : State) (r : Reg) (v : Word) : State :=
  { s with regs := s.regs.set r.val v }

/-- `x[0] <- 0`, the last action of a step (40_fetch_decode_dispatch R137). -/
def State.clearZero (s : State) : State := { s with regs := s.regs.set 0 0 }

/-- `pc <- t` (00_scope R9). -/
def State.setPc (s : State) (t : Word) : State := { s with pc := t }

/-- `int_vector <- v` (10_state R39). -/
def State.setIntVector (s : State) (v : Word) : State := { s with intVector := v }

/-- `halted <- 1` (10_state R40). -/
def State.halt (s : State) : State := { s with halted := true }

/-- A new content of the memory buffer. -/
def State.setMem (s : State) (m : Memory) : State := { s with mem := m }

/-! ## Bounds-checked memory access -/

/-- An access of `n` bytes at `a` is in bounds: `u(a) + n <= MEM_SIZE`, no wrap (20_memory R64). -/
def State.inBounds (s : State) (a : Word) (n : Nat) : Bool := decide (a.toNat + n ≤ s.cfg.memSize)

/-- `MemRead(a, n)` after its bounds check, zero-extended to 64 bits (20_memory R61). -/
def State.load (s : State) (a : Word) (n : Nat) : Word := BitVec.ofNat 64 (s.mem.loadLE a.toNat n)

/-- `MemWrite(a, n, v)` after its bounds check (20_memory R61). -/
def State.store (s : State) (a : Word) (n : Nat) (v : Word) : State :=
  s.setMem (s.mem.storeLE a.toNat n v.toNat)

/-- `raise BoundsFault(kind, addr)`: the fault is recorded, the core halts, nothing else changes
(60_exceptions R320). -/
def State.raiseBounds (s : State) (kind : AccessKind) (addr : Word) : State :=
  { s with fault := some ⟨kind, addr⟩, halted := true }

/-! ## Trap dispatch (60_exceptions R302 to R306, R321) -/

/-- The registers in push order. -/
def allRegs : List Reg :=
  [0, 1, 2, 3, 4, 5, 6, 7, 8, 9, 10, 11, 12, 13, 14, 15,
   16, 17, 18, 19, 20, 21, 22, 23, 24, 25, 26, 27, 28, 29, 30, 31]

/-- The stack pointer register of the trap subsystem (10_state R23). -/
def spReg : Reg := 2

/-- The address of frame slot `k`: `sp0 - 8k`, modulo 2^64 (60_exceptions R304). -/
def frameSlot (sp0 : Word) (k : Nat) : Word := sp0 - BitVec.ofNat 64 (8 * k)

/-- The trap frame, in push order: the 32 registers as they are before any push, then `pc`, which
is already `pc_next` (60_exceptions R302, R304, R305). -/
def State.trapFrame (s : State) : List (Word × Word) :=
  allRegs.map (fun r => (frameSlot (s.readReg spReg) r.val, s.readReg r))
    ++ [(frameSlot (s.readReg spReg) 32, s.pc)]

/-- The first slot of a frame that is out of bounds (60_exceptions R321). -/
def State.badSlot (s : State) (frame : List (Word × Word)) : Option Word :=
  (frame.find? fun slot => !s.inBounds slot.1 8).map Prod.fst

/-- Write the slots of a frame in order. -/
def State.pushFrame (s : State) : List (Word × Word) → State
  | [] => s
  | slot :: frame => State.pushFrame (s.store slot.1 8 slot.2) frame

/-- The address of vector entry `n`, modulo 2^64 (60_exceptions R303). -/
def State.vectorEntry (s : State) (n : Word) : Word := s.intVector + 8 * n

/-- `Trap(n)`: the one way an exception is taken (60_exceptions R302). All 33 slots, then the vector
entry, are checked before any write (R321); the entry is read after the frame is written (R303).
The saved program counter and registers are in the frame in memory; no mode or mask changes. There
is no return from it beside it: the core has no return-from-trap instruction (R315). -/
def State.trap (s : State) (n : Word) : State :=
  match s.badSlot s.trapFrame with
  | some a => s.raiseBounds .frame a
  | none =>
    if s.inBounds (s.vectorEntry n) 8 then
      let pushed := (s.pushFrame s.trapFrame).writeReg spReg (s.readReg spReg - 264)
      pushed.setPc (pushed.load (s.vectorEntry n) 8)
    else s.raiseBounds .vector (s.vectorEntry n)

/-! ## The introspection call (60_exceptions R310) -/

/-- `Introspect()`: the function switch is `x[28]`, the argument `x[29]`. -/
def State.introspect (s : State) : State :=
  if s.readReg 28 = 0 ∧ s.readReg 29 = 0 then
    (s.writeReg 31 s.cfg.intCount).writeReg s.cfg.statusReg 2
  else if s.readReg 28 = 0 ∧ s.readReg 29 = 1 then s.setIntVector (s.readReg 31)
  else if s.readReg 28 = 1 then s.writeReg s.cfg.statusReg 0
  else s

end Sys2Proof.Machine
end

