-- ==== Sys2Proof/Machine/Operands.lean ====
section
/-! DEFINITION. The operand forms (spec 30_encoding R96 to R98, 43_memory_control R207): what each
field of an instruction stands for. -/

namespace Sys2Proof.Machine

/-- `sext_46`: the S-shape immediate, whose sign is bit 45 of the field (30_encoding R96, R97). -/
def sext46 (imm : BitVec 46) : Word := imm.signExtend 64

/-- `sext_51`: the immediate of `jal` and `pcall` (30_encoding R98). -/
def sext51 (imm : BitVec 51) : Word := imm.signExtend 64

/-- The immediate of `lui` and `auipc` on bits 63:13, bits 12:0 zero (30_encoding R98). -/
def upperImm (imm : BitVec 51) : Word := imm.setWidth 64 <<< 13

/-- The effective address of a load, a store and `jalr`: base register plus sign-extended
immediate, modulo 2^64 (43_memory_control R207, R208, R221). -/
def State.effAddr (s : State) (r1 : Reg) (imm : BitVec 46) : Word := s.readReg r1 + sext46 imm

/-- The target of a taken branch: relative to the following instruction (43_memory_control R222). -/
def State.branchTarget (s : State) (off : BitVec 46) : Word := s.pc + sext46 off

/-! ## The two-operand forms (40_fetch_decode_dispatch R135) -/

/-- R form: `x[rd] <- f(x[r1], x[r2])`; sources are read before `x[rd]` is written (41_bitwise R168,
42_arithmetic R196, 44_set_imm_trap_io R247). -/
def regForm (f : Word → Word → Word) (rd r1 r2 : Reg) (s : State) : Result :=
  .next (s.writeReg rd (f (s.readReg r1) (s.readReg r2)))

/-- S form: the second operand is `sext_46(imm46)` (30_encoding R97). -/
def immForm (f : Word → Word → Word) (rd r1 : Reg) (imm : BitVec 46) (s : State) : Result :=
  .next (s.writeReg rd (f (s.readReg r1) (sext46 imm)))

/-- A divide: a zero divisor writes no register and takes `Trap(0)` (42_arithmetic R189). -/
def divForm (f : Word → Word → Word) (rd : Reg) (a b : Word) (s : State) : Result :=
  if b = 0 then .next (s.trap 0) else .next (s.writeReg rd (f a b))

/-- A load of `n` bytes: `x[rd]` takes the zero-extended value, or the access faults and nothing is
written (43_memory_control R207, 60_exceptions R320). -/
def loadForm (n : Nat) (rd r1 : Reg) (imm : BitVec 46) (s : State) : Result :=
  if s.inBounds (s.effAddr r1 imm) n then .next (s.writeReg rd (s.load (s.effAddr r1 imm) n))
  else .next (s.raiseBounds .load (s.effAddr r1 imm))

/-- A store of the low `n` bytes of `x[rd]`, or the access faults and no byte is written
(43_memory_control R208, 60_exceptions R320). -/
def storeForm (n : Nat) (rd r1 : Reg) (imm : BitVec 46) (s : State) : Result :=
  if s.inBounds (s.effAddr r1 imm) n then .next (s.store (s.effAddr r1 imm) n (s.readReg rd))
  else .next (s.raiseBounds .store (s.effAddr r1 imm))

/-- A conditional branch: `a` is the `r1` field and `b` the `rd` field; no register is written
(43_memory_control R222). -/
def branchForm (cond : Word → Word → Bool) (a b : Reg) (off : BitVec 46) (s : State) : Result :=
  if cond (s.readReg a) (s.readReg b) then .next (s.setPc (s.branchTarget off)) else .next s

end Sys2Proof.Machine
end

