-- ==== Sys2Proof/Machine/Arithmetic.lean ====
section
/-! DEFINITION. The arithmetic group (spec 42_arithmetic). -/

namespace Sys2Proof.Machine

/-- `add rd, r1, r2`, sum (R181). -/
def execAdd (rd r1 r2 : Reg) (s : State) : Result :=
  regForm aluAdd rd r1 r2 s

/-- `addi rd, r1, imm` (R182). -/
def execAddi (rd r1 : Reg) (imm : BitVec 46) (s : State) : Result :=
  immForm aluAdd rd r1 imm s

/-- `sub rd, r1, r2`, difference (R183). -/
def execSub (rd r1 r2 : Reg) (s : State) : Result :=
  regForm aluSub rd r1 r2 s

/-- `subi rd, r1, imm` (R184). -/
def execSubi (rd r1 : Reg) (imm : BitVec 46) (s : State) : Result :=
  immForm aluSub rd r1 imm s

/-- `umul rd, r1, r2`, unsigned product (R185). -/
def execUmul (rd r1 r2 : Reg) (s : State) : Result :=
  regForm aluUmul rd r1 r2 s

/-- `umuli rd, r1, imm` (R186). -/
def execUmuli (rd r1 : Reg) (imm : BitVec 46) (s : State) : Result :=
  immForm aluUmul rd r1 imm s

/-- `smul rd, r1, r2`, signed product (R187). -/
def execSmul (rd r1 r2 : Reg) (s : State) : Result :=
  regForm aluSmul rd r1 r2 s

/-- `smuli rd, r1, imm` (R188). -/
def execSmuli (rd r1 : Reg) (imm : BitVec 46) (s : State) : Result :=
  immForm aluSmul rd r1 imm s

/-- `udiv rd, r1, r2`, unsigned quotient, or `Trap(0)` (R190, R189). -/
def execUdiv (rd r1 r2 : Reg) (s : State) : Result :=
  divForm aluUdiv rd (s.readReg r1) (s.readReg r2) s

/-- `udivi rd, r1, imm`; `imm = 0` always traps (R191, R189). -/
def execUdivi (rd r1 : Reg) (imm : BitVec 46) (s : State) : Result :=
  divForm aluUdiv rd (s.readReg r1) (sext46 imm) s

/-- `sdiv rd, r1, r2`, signed quotient, or `Trap(0)` (R192, R189). -/
def execSdiv (rd r1 r2 : Reg) (s : State) : Result :=
  divForm aluSdiv rd (s.readReg r1) (s.readReg r2) s

/-- `sdivi rd, r1, imm`; `imm = 0` always traps (R193, R189). -/
def execSdivi (rd r1 : Reg) (imm : BitVec 46) (s : State) : Result :=
  divForm aluSdiv rd (s.readReg r1) (sext46 imm) s

end Sys2Proof.Machine
end

