-- ==== Sys2Proof/Machine/Bitwise.lean ====
section
/-! DEFINITION. The bitwise group (spec 41_bitwise). -/

namespace Sys2Proof.Machine

/-- `and rd, r1, r2` (R151). -/
def execAnd (rd r1 r2 : Reg) (s : State) : Result :=
  regForm (· &&& ·) rd r1 r2 s

/-- `andi rd, r1, imm` (R152). -/
def execAndi (rd r1 : Reg) (imm : BitVec 46) (s : State) : Result :=
  immForm (· &&& ·) rd r1 imm s

/-- `xor rd, r1, r2` (R153). -/
def execXor (rd r1 r2 : Reg) (s : State) : Result :=
  regForm (· ^^^ ·) rd r1 r2 s

/-- `xori rd, r1, imm` (R154). -/
def execXori (rd r1 : Reg) (imm : BitVec 46) (s : State) : Result :=
  immForm (· ^^^ ·) rd r1 imm s

/-- `or rd, r1, r2` (R155). -/
def execOr (rd r1 r2 : Reg) (s : State) : Result :=
  regForm (· ||| ·) rd r1 r2 s

/-- `ori rd, r1, imm` (R156). -/
def execOri (rd r1 : Reg) (imm : BitVec 46) (s : State) : Result :=
  immForm (· ||| ·) rd r1 imm s

/-- `not rd, r1` (R157). -/
def execNot (rd r1 : Reg) (s : State) : Result :=
  .next (s.writeReg rd (~~~s.readReg r1))

/-- `cnt rd, r1`, population count (R158). -/
def execCnt (rd r1 : Reg) (s : State) : Result :=
  .next (s.writeReg rd (aluCnt (s.readReg r1)))

/-- `lls rd, r1, r2`, logical left shift (R160). -/
def execLls (rd r1 r2 : Reg) (s : State) : Result :=
  regForm aluLls rd r1 r2 s

/-- `llsi rd, r1, imm` (R161). -/
def execLlsi (rd r1 : Reg) (imm : BitVec 46) (s : State) : Result :=
  immForm aluLls rd r1 imm s

/-- `lrs rd, r1, r2`, logical right shift (R162). -/
def execLrs (rd r1 r2 : Reg) (s : State) : Result :=
  regForm aluLrs rd r1 r2 s

/-- `lrsi rd, r1, imm` (R163). -/
def execLrsi (rd r1 : Reg) (imm : BitVec 46) (s : State) : Result :=
  immForm aluLrs rd r1 imm s

/-- `als rd, r1, r2`, arithmetic left shift (R164). -/
def execAls (rd r1 r2 : Reg) (s : State) : Result :=
  regForm (aluAls s.cfg.alsOvershift) rd r1 r2 s

/-- `alsi rd, r1, imm` (R165). -/
def execAlsi (rd r1 : Reg) (imm : BitVec 46) (s : State) : Result :=
  immForm (aluAls s.cfg.alsOvershift) rd r1 imm s

/-- `ars rd, r1, r2`, arithmetic right shift (R166). -/
def execArs (rd r1 r2 : Reg) (s : State) : Result :=
  regForm aluArs rd r1 r2 s

/-- `arsi rd, r1, imm` (R167). -/
def execArsi (rd r1 : Reg) (imm : BitVec 46) (s : State) : Result :=
  immForm aluArs rd r1 imm s

end Sys2Proof.Machine
end

