-- ==== Sys2Proof/Machine/Flags.lean ====
section
/-! DEFINITION. The conditions of the branches and the conditional sets (spec 43_memory_control R223
to R228, 44_set_imm_trap_io R250 to R257). The core has no flags (10_state R34): a comparison is a
function of two values and is recorded nowhere. -/

namespace Sys2Proof.Machine

/-- Equal, all 64 bits (R223). -/
def condE (a b : Word) : Bool := a == b

/-- Not equal (R224). -/
def condNe (a b : Word) : Bool := a != b

/-- Greater, unsigned (R225, R250). -/
def condGu (a b : Word) : Bool := decide (a.toNat > b.toNat)

/-- Greater, signed (R226, R252). -/
def condGs (a b : Word) : Bool := decide (a.toInt > b.toInt)

/-- Less or equal, unsigned (R227, R254). -/
def condLeu (a b : Word) : Bool := decide (a.toNat ≤ b.toNat)

/-- Less or equal, signed (R228, R256). -/
def condLes (a b : Word) : Bool := decide (a.toInt ≤ b.toInt)

/-- The boolean a conditional set writes: the 64-bit value 1 or 0 (44_set_imm_trap_io R247). -/
def boolWord (c : Bool) : Word := if c then 1 else 0

end Sys2Proof.Machine
end

