-- ==== Sys2Proof/Machine/Control.lean ====
section
/-! DEFINITION. Jumps and conditional branches (spec 43_memory_control sections 4 and 5). `pc` holds
`pc_next` while an instruction executes (10_state R29). -/

namespace Sys2Proof.Machine

/-- `jal r, off`: the link is the `r1` field (R220, C5). -/
def execJal (r1 : Reg) (off : BitVec 51) (s : State) : Result :=
  .next ((s.writeReg r1 s.pc).setPc (s.pc + sext51 off))

/-- `jalr rd, r1, imm`: the target is read before the link is written (R221). -/
def execJalr (rd r1 : Reg) (imm : BitVec 46) (s : State) : Result :=
  .next ((s.writeReg rd s.pc).setPc (s.effAddr r1 imm))

/-- `je a, b, off`: branch if equal (R223). -/
def execJe (a b : Reg) (off : BitVec 46) (s : State) : Result :=
  branchForm condE a b off s

/-- `jne a, b, off`: branch if not equal (R224). -/
def execJne (a b : Reg) (off : BitVec 46) (s : State) : Result :=
  branchForm condNe a b off s

/-- `jgu a, b, off`: branch if greater, unsigned (R225). -/
def execJgu (a b : Reg) (off : BitVec 46) (s : State) : Result :=
  branchForm condGu a b off s

/-- `jgs a, b, off`: branch if greater, signed (R226). -/
def execJgs (a b : Reg) (off : BitVec 46) (s : State) : Result :=
  branchForm condGs a b off s

/-- `jleu a, b, off`: branch if less or equal, unsigned (R227). -/
def execJleu (a b : Reg) (off : BitVec 46) (s : State) : Result :=
  branchForm condLeu a b off s

/-- `jles a, b, off`: branch if less or equal, signed (R228). -/
def execJles (a b : Reg) (off : BitVec 46) (s : State) : Result :=
  branchForm condLes a b off s

end Sys2Proof.Machine
end

