-- ==== Sys2Proof/Machine/LoadStore.lean ====
section
/-! DEFINITION. Loads and stores (spec 43_memory_control sections 2 and 3). -/

namespace Sys2Proof.Machine

/-- `ldb rd, r1, imm`, load byte, zero-extended (R210). -/
def execLdb (rd r1 : Reg) (imm : BitVec 46) (s : State) : Result :=
  loadForm 1 rd r1 imm s

/-- `ldh rd, r1, imm`, load half-word, zero-extended (R211). -/
def execLdh (rd r1 : Reg) (imm : BitVec 46) (s : State) : Result :=
  loadForm 2 rd r1 imm s

/-- `ldw rd, r1, imm`, load word, zero-extended (R212). -/
def execLdw (rd r1 : Reg) (imm : BitVec 46) (s : State) : Result :=
  loadForm 4 rd r1 imm s

/-- `ldd rd, r1, imm`, load double-word, zero-extended (R213). -/
def execLdd (rd r1 : Reg) (imm : BitVec 46) (s : State) : Result :=
  loadForm 8 rd r1 imm s

/-- `stb rd, r1, imm`, store byte: `rd` names the data, `r1` the base (R214). -/
def execStb (rd r1 : Reg) (imm : BitVec 46) (s : State) : Result :=
  storeForm 1 rd r1 imm s

/-- `sth rd, r1, imm`, store half-word: `rd` names the data, `r1` the base (R215). -/
def execSth (rd r1 : Reg) (imm : BitVec 46) (s : State) : Result :=
  storeForm 2 rd r1 imm s

/-- `stw rd, r1, imm`, store word: `rd` names the data, `r1` the base (R216). -/
def execStw (rd r1 : Reg) (imm : BitVec 46) (s : State) : Result :=
  storeForm 4 rd r1 imm s

/-- `std rd, r1, imm`, store double-word: `rd` names the data, `r1` the base (R217). -/
def execStd (rd r1 : Reg) (imm : BitVec 46) (s : State) : Result :=
  storeForm 8 rd r1 imm s

end Sys2Proof.Machine
end

