-- ==== Sys2Proof/Machine/SetCond.lean ====
section
/-! DEFINITION. Conditional sets (spec 44_set_imm_trap_io section 2). -/

namespace Sys2Proof.Machine

/-- `setgu rd, r1, r2`: set if greater, unsigned (R250). -/
def execSetgu (rd r1 r2 : Reg) (s : State) : Result :=
  regForm (fun a b => boolWord (condGu a b)) rd r1 r2 s

/-- `setgui rd, r1, imm` (R251). -/
def execSetgui (rd r1 : Reg) (imm : BitVec 46) (s : State) : Result :=
  immForm (fun a b => boolWord (condGu a b)) rd r1 imm s

/-- `setgs rd, r1, r2`: set if greater, signed (R252). -/
def execSetgs (rd r1 r2 : Reg) (s : State) : Result :=
  regForm (fun a b => boolWord (condGs a b)) rd r1 r2 s

/-- `setgsi rd, r1, imm` (R253). -/
def execSetgsi (rd r1 : Reg) (imm : BitVec 46) (s : State) : Result :=
  immForm (fun a b => boolWord (condGs a b)) rd r1 imm s

/-- `setleu rd, r1, r2`: set if less or equal, unsigned (R254). -/
def execSetleu (rd r1 r2 : Reg) (s : State) : Result :=
  regForm (fun a b => boolWord (condLeu a b)) rd r1 r2 s

/-- `setleui rd, r1, imm` (R255). -/
def execSetleui (rd r1 : Reg) (imm : BitVec 46) (s : State) : Result :=
  immForm (fun a b => boolWord (condLeu a b)) rd r1 imm s

/-- `setles rd, r1, r2`: set if less or equal, signed (R256). -/
def execSetles (rd r1 r2 : Reg) (s : State) : Result :=
  regForm (fun a b => boolWord (condLes a b)) rd r1 r2 s

/-- `setlesi rd, r1, imm` (R257). -/
def execSetlesi (rd r1 : Reg) (imm : BitVec 46) (s : State) : Result :=
  immForm (fun a b => boolWord (condLes a b)) rd r1 imm s

end Sys2Proof.Machine
end

