-- ==== Sys2Proof/Machine/System.lean ====
section
/-! DEFINITION. Upper immediates, the software interrupt, the breakpoint, the port instructions and
`halt` (spec 44_set_imm_trap_io sections 3 to 7). -/

namespace Sys2Proof.Machine

/-- `lui r, imm`: the shifted immediate is merged by OR, no bit is cleared (R258). -/
def execLui (r1 : Reg) (imm : BitVec 51) (s : State) : Result :=
  .next (s.writeReg r1 (s.readReg r1 ||| upperImm imm))

/-- `auipc r, imm`: `pc_next` plus the shifted immediate (R259). -/
def execAuipc (r1 : Reg) (imm : BitVec 51) (s : State) : Result :=
  .next (s.writeReg r1 (s.pc + upperImm imm))

/-- `pcall n`: the all-ones call number is the introspection call, every other one a trap (R260). -/
def execPcall (imm : BitVec 51) (s : State) : Result :=
  if sext51 imm = BitVec.allOnes 64 then .next s.introspect else .next (s.trap (sext51 imm))

/-- `pbreak`: no change of state (R265). Its one effect, the output `break_sig`, is
`State.breakSig` (10_state R52, log entry 6). -/
def execPbreak (s : State) : Result :=
  .next s

/-- `outb rd, r1, imm`: reserved, changes nothing; every field is ignored (R270, R269). -/
def execOutb (_rd _r1 : Reg) (_imm : BitVec 46) (s : State) : Result :=
  .next s

/-- `outw rd, r1, imm`: reserved, changes nothing; every field is ignored (R271, R269). -/
def execOutw (_rd _r1 : Reg) (_imm : BitVec 46) (s : State) : Result :=
  .next s

/-- `inb rd, r1, imm`: reserved, changes nothing; every field is ignored (R272, R269). -/
def execInb (_rd _r1 : Reg) (_imm : BitVec 46) (s : State) : Result :=
  .next s

/-- `inw rd, r1, imm`: reserved, changes nothing; every field is ignored (R273, R269). -/
def execInw (_rd _r1 : Reg) (_imm : BitVec 46) (s : State) : Result :=
  .next s

/-- `halt`: sets the halt flag (R275). -/
def execHalt (s : State) : Result :=
  .next s.halt

end Sys2Proof.Machine
end

