-- ==== Sys2Proof/Machine/Dispatch.lean ====
section
/-! DEFINITION. One arm per instruction (spec 30_encoding R108). `exec` runs with `pc` already
advanced to `pc_next` (40_fetch_decode_dispatch R130). -/

namespace Sys2Proof.Machine

def exec (i : Instr) (s : State) : Host.Outcome State Fault Refusal :=
  match i with
  | .and rd r1 r2 => Sys2Proof.Machine.execAnd rd r1 r2 s
  | .andi rd r1 imm => Sys2Proof.Machine.execAndi rd r1 imm s
  | .xor rd r1 r2 => Sys2Proof.Machine.execXor rd r1 r2 s
  | .xori rd r1 imm => Sys2Proof.Machine.execXori rd r1 imm s
  | .or rd r1 r2 => Sys2Proof.Machine.execOr rd r1 r2 s
  | .ori rd r1 imm => Sys2Proof.Machine.execOri rd r1 imm s
  | .not rd r1 => Sys2Proof.Machine.execNot rd r1 s
  | .cnt rd r1 => Sys2Proof.Machine.execCnt rd r1 s
  | .lls rd r1 r2 => Sys2Proof.Machine.execLls rd r1 r2 s
  | .llsi rd r1 imm => Sys2Proof.Machine.execLlsi rd r1 imm s
  | .lrs rd r1 r2 => Sys2Proof.Machine.execLrs rd r1 r2 s
  | .lrsi rd r1 imm => Sys2Proof.Machine.execLrsi rd r1 imm s
  | .als rd r1 r2 => Sys2Proof.Machine.execAls rd r1 r2 s
  | .alsi rd r1 imm => Sys2Proof.Machine.execAlsi rd r1 imm s
  | .ars rd r1 r2 => Sys2Proof.Machine.execArs rd r1 r2 s
  | .arsi rd r1 imm => Sys2Proof.Machine.execArsi rd r1 imm s
  | .add rd r1 r2 => Sys2Proof.Machine.execAdd rd r1 r2 s
  | .addi rd r1 imm => Sys2Proof.Machine.execAddi rd r1 imm s
  | .sub rd r1 r2 => Sys2Proof.Machine.execSub rd r1 r2 s
  | .subi rd r1 imm => Sys2Proof.Machine.execSubi rd r1 imm s
  | .umul rd r1 r2 => Sys2Proof.Machine.execUmul rd r1 r2 s
  | .umuli rd r1 imm => Sys2Proof.Machine.execUmuli rd r1 imm s
  | .smul rd r1 r2 => Sys2Proof.Machine.execSmul rd r1 r2 s
  | .smuli rd r1 imm => Sys2Proof.Machine.execSmuli rd r1 imm s
  | .udiv rd r1 r2 => Sys2Proof.Machine.execUdiv rd r1 r2 s
  | .udivi rd r1 imm => Sys2Proof.Machine.execUdivi rd r1 imm s
  | .sdiv rd r1 r2 => Sys2Proof.Machine.execSdiv rd r1 r2 s
  | .sdivi rd r1 imm => Sys2Proof.Machine.execSdivi rd r1 imm s
  | .ldb rd r1 imm => Sys2Proof.Machine.execLdb rd r1 imm s
  | .ldh rd r1 imm => Sys2Proof.Machine.execLdh rd r1 imm s
  | .ldw rd r1 imm => Sys2Proof.Machine.execLdw rd r1 imm s
  | .ldd rd r1 imm => Sys2Proof.Machine.execLdd rd r1 imm s
  | .stb rd r1 imm => Sys2Proof.Machine.execStb rd r1 imm s
  | .sth rd r1 imm => Sys2Proof.Machine.execSth rd r1 imm s
  | .stw rd r1 imm => Sys2Proof.Machine.execStw rd r1 imm s
  | .std rd r1 imm => Sys2Proof.Machine.execStd rd r1 imm s
  | .jal r1 off => Sys2Proof.Machine.execJal r1 off s
  | .jalr rd r1 imm => Sys2Proof.Machine.execJalr rd r1 imm s
  | .je a b off => Sys2Proof.Machine.execJe a b off s
  | .jne a b off => Sys2Proof.Machine.execJne a b off s
  | .jgu a b off => Sys2Proof.Machine.execJgu a b off s
  | .jgs a b off => Sys2Proof.Machine.execJgs a b off s
  | .jleu a b off => Sys2Proof.Machine.execJleu a b off s
  | .jles a b off => Sys2Proof.Machine.execJles a b off s
  | .setgu rd r1 r2 => Sys2Proof.Machine.execSetgu rd r1 r2 s
  | .setgui rd r1 imm => Sys2Proof.Machine.execSetgui rd r1 imm s
  | .setgs rd r1 r2 => Sys2Proof.Machine.execSetgs rd r1 r2 s
  | .setgsi rd r1 imm => Sys2Proof.Machine.execSetgsi rd r1 imm s
  | .setleu rd r1 r2 => Sys2Proof.Machine.execSetleu rd r1 r2 s
  | .setleui rd r1 imm => Sys2Proof.Machine.execSetleui rd r1 imm s
  | .setles rd r1 r2 => Sys2Proof.Machine.execSetles rd r1 r2 s
  | .setlesi rd r1 imm => Sys2Proof.Machine.execSetlesi rd r1 imm s
  | .lui r1 imm => Sys2Proof.Machine.execLui r1 imm s
  | .auipc r1 imm => Sys2Proof.Machine.execAuipc r1 imm s
  | .pcall imm => Sys2Proof.Machine.execPcall imm s
  | .pbreak => Sys2Proof.Machine.execPbreak s
  | .outb rd r1 imm => Sys2Proof.Machine.execOutb rd r1 imm s
  | .outw rd r1 imm => Sys2Proof.Machine.execOutw rd r1 imm s
  | .inb rd r1 imm => Sys2Proof.Machine.execInb rd r1 imm s
  | .inw rd r1 imm => Sys2Proof.Machine.execInw rd r1 imm s
  | .halt => Sys2Proof.Machine.execHalt s

end Sys2Proof.Machine
end

