-- ==== Sys2Proof/Machine/Fetch.lean ====
section
/-! DEFINITION. The parts of a step around an instruction's meaning (spec 40_fetch_decode_dispatch):
fetch, the advance of `pc`, the treatment of an unassigned opcode, the end of the step; and the
outputs (10_state R52, R53). -/

namespace Sys2Proof.Machine

/-- The 8 bytes at `pc` are in the buffer (R133). -/
def State.fetchInBounds (s : State) : Bool := s.inBounds s.pc instrBytes

/-- The instruction word: `MemRead(pc, 8)` (20_memory R62, 40_fetch_decode_dispatch R132). -/
def State.fetchWord (s : State) : Word := s.load s.pc instrBytes

/-- `pc <- pc + 8`, modulo 2^64 (R130): `pc` is then `pc_next`. -/
def State.advancePc (s : State) : State := s.setPc (s.pc + 8)

/-- What the dispatch table gives for the fetched word (R134). -/
def State.fetched (s : State) : Decoded := dispatch s.cfg s.fetchWord

/-- The end of a step that fetched a word: `x[0] <- 0` (R137). -/
def endStep : Result → Result
  | .next s => .next s.clearZero
  | .fault r => .fault r
  | .refused r => .refused r

/-- An unassigned opcode executes nothing (R136), or stops the model where `UNKNOWN_OPCODE` is
`fault` (00_scope R7, log entry 8). -/
def unassignedOpcode (op : Byte) (s : State) : Result :=
  match s.cfg.unknownOpcode with
  | .nop => .next s
  | .fault => .fault (.unassignedOpcode op)

/-- The next step fetches a word: neither halted, nor asked to halt, and the fetch is in bounds
(R130, R131, R133). -/
def State.willFetch (s : State) : Bool := !s.halted && !s.haltReq && s.fetchInBounds

/-- When an output is looked at: outside a step (at reset and between steps), or during the step from
a state. -/
inductive Moment where
  | idle
  | stepping
  deriving DecidableEq, Repr

/-- The output `break_sig` (10_state R52, log entry 6): 1 during a step that executes `pbreak`, 0
during every other step and outside one, so 0 at reset (70_reset_and_hazards R356). -/
def State.breakSig (s : State) : Moment → Bool
  | .idle => false
  | .stepping => s.willFetch && decide (s.fetched = .instr .pbreak)

/-- The output `exit_code` (10_state R53). -/
def State.exitCode (s : State) : Word := s.readReg 1

/-- The next step executes an unassigned opcode: the ghost flag of 93_implementation_defined U1. -/
def State.hitsUnassigned (s : State) : Bool :=
  s.willFetch &&
    match s.fetched with
    | .instr _ => false
    | .unassigned _ => true

/-- The word `State.withFetchWord` stores, as bytes at `pc`. -/
def State.placeWord (s : State) (w : Word) : State :=
  s.setMem (s.mem.writeBytes s.pc.toNat (bytesOfWord w))

end Sys2Proof.Machine
end

