-- ==== Sys2Proof/Machine/Step.lean ====
section
/-! DEFINITION. The step of the core (spec 40_fetch_decode_dispatch R130). -/

namespace Sys2Proof.Machine

/-- One step, in the order of R130 and R325: a halted core does nothing (R131); `halt_req` halts
(10_state R51); a fetch out of bounds faults with `pc` not advanced (R133); otherwise the word at
`pc` is dispatched with `pc` advanced, and `x[0]` is cleared last (R137). -/
def step (s : State) : Host.Outcome State Fault Refusal :=
  if s.halted then .next s
  else if s.haltReq then .next s.halt
  else if s.fetchInBounds then
    match s.fetched with
    | .instr i => endStep (exec i s.advancePc)
    | .unassigned op => endStep (unassignedOpcode op s.advancePc)
  else .next (s.raiseBounds .fetch s.pc)

/-- `s` with an instruction, given as the opcode table numbers its bits, stored where the next step
fetches: the 8 bytes at `pc`. It stands for the loader's copy of an image (log entry 10). -/
def State.withFetchWord (s : State) (nbits w : Nat) : State := s.placeWord (tableWord nbits w)

end Sys2Proof.Machine
end

