-- ==== Sys2Proof/Machine/HostPort.lean ====
section
/-! DEFINITION. What the host may do between two steps (spec 10_state R27, R51, R54). No step calls
these: a run with a debugger attached interleaves them with steps (log entry 13). -/

namespace Sys2Proof.Machine

/-- A write by the host. -/
inductive HostWrite where
  /-- `x[r] <- v`. -/
  | reg (r : Reg) (v : Word)
  /-- `pc <- v`. -/
  | pc (v : Word)
  /-- `int_vector <- v`. -/
  | intVector (v : Word)
  /-- `halted <- b`. -/
  | halted (b : Bool)
  /-- One byte of the buffer. -/
  | byte (addr : Nat) (v : Byte)
  /-- The level of `halt_req`. -/
  | haltReq (b : Bool)
  deriving DecidableEq, Repr

/-- The state after a host write, or `none` for a write the host may not make: `x[0]` (R27), or an
address outside the buffer, which does not exist (R44). The host cannot write `fault` (R41, R54). -/
def State.hostWrite (s : State) : HostWrite → Option State
  | .reg r v => if r = 0 then none else some (s.writeReg r v)
  | .pc v => some (s.setPc v)
  | .intVector v => some (s.setIntVector v)
  | .halted b => some { s with halted := b }
  | .byte a v => if a < s.cfg.memSize then some (s.setMem (s.mem.write a v)) else none
  | .haltReq b => some { s with haltReq := b }

/-- The host reads a register (R54). -/
def State.hostReg (s : State) (r : Reg) : Word := s.readReg r

/-- The host reads a byte of the buffer (R54). -/
def State.hostByte (s : State) (a : Nat) : Option Byte :=
  if a < s.cfg.memSize then some (s.mem.read a) else none

end Sys2Proof.Machine
end

