-- ==== Sys2Proof/Machine/Launch.lean ====
section
/-! DEFINITION. The reset as the loader builds it (spec 70_reset_and_hazards R350 to R358), for every
value of the launch parameters of 00_scope R7. -/

namespace Sys2Proof.Machine

/-- The reset inputs and the configuration (10_state R55, 70_reset_and_hazards R350). -/
structure Launch where
  cfg : Config
  /-- `IMAGE`, the flattened code and data. -/
  image : List Byte
  /-- `ARGC`. -/
  argc : Word
  /-- `MEM_INIT`, any content of the buffer before the image is copied (R355). -/
  memInit : List Host.Cell
  /-- `REG_INIT`, the reset values of `x[1] .. x[30]`: all zero but in a conservative model
  (00_scope R7, R353). Its entries 0 and 31 are not used. -/
  regInit : Vector Word 32
  deriving DecidableEq, Repr

/-- The launch is not load-time fatal (R357). -/
def Launch.ok (l : Launch) : Bool :=
  decide (l.image.length % instrBytes = 0) && decide (l.image.length ≤ l.cfg.memSize)
    && decide (8 ≤ l.cfg.memSize) && decide (l.cfg.memSize < 2 ^ 64)

/-- The memory after reset: the image from address 0 over `MEM_INIT` (R355). -/
def Launch.memory (l : Launch) : Memory :=
  Memory.writeBytes
    (Memory.ofCells (l.memInit.filter fun c => decide (c.1 < l.cfg.memSize))) 0 l.image

/-- The state after reset, or `none` for a launch that is load-time fatal (R350 to R357). -/
def Launch.start (l : Launch) : Option State :=
  if l.ok then
    some
      { regs := (l.regInit.set 0 0).set 31 l.argc
        pc := 0
        intVector := 0
        halted := false
        fault := none
        mem := l.memory
        cfg := l.cfg
        haltReq := false }
  else none

/-- The launch that `State.reset` is (log entry 3). -/
def Launch.default : Launch where
  cfg := Config.hardware
  image := []
  argc := 0
  memInit := []
  regInit := Vector.replicate 32 0

end Sys2Proof.Machine
end

