-- ==== Sys2Proof/WellFormed.lean ====
section
/-! DEFINITION. When an instruction is well formed for a build (spec 10_state R37, 30_encoding R112).
The operand types of `Instr` rule out every other ill-formed operand: a register number is below 32
and an immediate has exactly its field's bits. -/

namespace Sys2Proof

/-- An instruction is well formed for a build when `OPC` gives its mnemonic an opcode and `CAPS` has
its group: `INT_DIV` for the divides, `SWI` for `pcall`, `COND_SET` for the sets (10_state R36, R37,
30_encoding R106). -/
abbrev Instr.wellFormed (c : Config) (i : Instr) : Bool :=
  (c.opc.opcodeOf i.mnemonic).isSome && i.mnemonic.presentIn c.caps

end Sys2Proof
end

