-- ==== Sys2Proof/Safety.lean ====
section
/-! DEFINITION. The terms claims are stated in: how a run ends, the invariant of the core, what an
instruction leaves unchanged, and what a fault and a trap do, in words that name no meaning of the
model. -/

namespace Sys2Proof.Machine

/-! ## Ends of a run and the invariant -/

/-- The proper end of a run (spec 00_scope R17): halted, and no fault. -/
abbrev State.ended (s : State) : Prop := s.halted = true ∧ s.fault = none

/-- Stopped by a `BoundsFault`: not a proper end (60_exceptions R320). -/
abbrev State.faulted (s : State) : Prop := s.fault ≠ none

/-- What holds of the core at every step boundary: `x[0]` holds 0 (10_state R22), the memory is in
canonical form and inside the buffer (R44), and a fault implies a halt (60_exceptions R320). -/
abbrev State.Inv (s : State) : Prop :=
  s.regs[0] = 0 ∧ Memory.wf s.mem = true ∧ Memory.within s.cfg.memSize s.mem = true
    ∧ (s.fault ≠ none → s.halted = true)

/-- The core is about to fetch: not halted, not asked to halt, and the 8 bytes at `pc` exist
(40_fetch_decode_dispatch R130, R131, R133). -/
abbrev State.Fetches (s : State) : Prop :=
  s.halted = false ∧ s.haltReq = false ∧ s.pc.toNat + 8 ≤ s.cfg.memSize

/-! ## Frames -/

/-- Every byte of memory reads as before. -/
def SameMem (s t : State) : Prop := ∀ a, Memory.read t.mem a = Memory.read s.mem a

/-- Every register reads as before. -/
def SameRegs (s t : State) : Prop := ∀ r, t.readReg r = s.readReg r

/-- Everything but the registers, `pc` and memory is as before. -/
def SameControl (s t : State) : Prop :=
  t.intVector = s.intVector ∧ t.halted = s.halted ∧ t.fault = s.fault ∧ t.cfg = s.cfg
    ∧ t.haltReq = s.haltReq

/-- Everything but the registers and `pc` is as before, and register `rd` takes the value `v`; where
`rd` is `x[0]` nothing is written (10_state R22). -/
def WritesReg (s t : State) (rd : Reg) (v : Word) : Prop :=
  (∀ r, t.readReg r = if r = 0 then 0 else if r = rd then v else s.readReg r)
    ∧ SameMem s t ∧ SameControl s t

/-- `WritesReg`, and `pc` stays: during an instruction it is already `pc_next`. -/
def OnlyReg (s t : State) (rd : Reg) (v : Word) : Prop := WritesReg s t rd v ∧ t.pc = s.pc

/-- The state after `raise BoundsFault(kind, addr)`: the record, the halt flag, nothing else
(60_exceptions R320). -/
def FaultsAt (s t : State) (kind : AccessKind) (addr : Word) : Prop :=
  t.fault = some ⟨kind, addr⟩ ∧ t.halted = true ∧ t.pc = s.pc ∧ t.intVector = s.intVector
    ∧ t.cfg = s.cfg ∧ t.haltReq = s.haltReq ∧ SameRegs s t ∧ SameMem s t

/-! ## Traps (60_exceptions R302) -/

/-- The address of slot `k` of the frame a trap would push: `sp0 - 8k` modulo 2^64 (R304). -/
abbrev State.slotAddr (s : State) (k : Nat) : Word := s.readReg 2 - BitVec.ofNat 64 (8 * k)

/-- All 33 frame slots lie in the buffer. -/
abbrev State.FrameFits (s : State) : Prop :=
  ∀ k, k < 33 → (s.slotAddr k).toNat + 8 ≤ s.cfg.memSize

/-- The frame and the vector entry of call number `n` lie in the buffer: the trap is taken. -/
abbrev State.TrapFits (s : State) (n : Word) : Prop :=
  s.FrameFits ∧ (s.intVector + 8 * n).toNat + 8 ≤ s.cfg.memSize

/-- `Trap(n)` taken from `s` gives `t`: the 33 slots hold the registers and `pc` as they were, the
stack pointer dropped by 264, `pc` is the vector entry as memory holds it after the frame is
written, and every byte outside the slots and everything else is unchanged. -/
def TrapTaken (s t : State) (n : Word) : Prop :=
  (∀ r : Reg, t.load (s.slotAddr r.val) 8 = s.readReg r)
    ∧ t.load (s.slotAddr 32) 8 = s.pc
    ∧ (∀ r, t.readReg r = if r = 2 then s.readReg 2 - 264 else s.readReg r)
    ∧ t.pc = t.load (s.intVector + 8 * n) 8
    ∧ (∀ a, (∀ k, k < 33 → a < (s.slotAddr k).toNat ∨ (s.slotAddr k).toNat + 8 ≤ a) →
        Memory.read t.mem a = Memory.read s.mem a)
    ∧ SameControl s t

/-! ## What the two-operand instructions compute -/

/-- An R-shape instruction: its opcode decodes to it with its three fields, and for every operand it
answers a next state in which `rd` alone changed, to a value that `P` relates to the two sources. -/
def ComputesR (op : Byte) (mk : Reg → Reg → Reg → Instr) (P : Word → Word → Word → Prop) : Prop :=
  (∀ w, opOf w = op → decodeWord w = .instr (mk (rdOf w) (r1Of w) (r2Of w)))
    ∧ ∀ rd r1 r2 s, ∃ t v, exec (mk rd r1 r2) s = .next t ∧ P (s.readReg r1) (s.readReg r2) v
        ∧ OnlyReg s t rd v

/-- An S-shape instruction whose second operand is the sign-extended immediate. -/
def ComputesS (op : Byte) (mk : Reg → Reg → BitVec 46 → Instr) (P : Word → Word → Word → Prop) :
    Prop :=
  (∀ w, opOf w = op → decodeWord w = .instr (mk (rdOf w) (r1Of w) (imm46Of w)))
    ∧ ∀ rd r1 imm s, ∃ t v, exec (mk rd r1 imm) s = .next t
        ∧ P (s.readReg r1) (imm.signExtend 64) v ∧ OnlyReg s t rd v

/-- An R-shape divide: `ComputesR` for a non-zero divisor, `Trap(0)` for a zero one; the opcode is in
the dispatch table exactly under `INT_DIV`, bit 2 of `CAPS`. -/
def DividesR (op : Byte) (mk : Reg → Reg → Reg → Instr) (P : Word → Word → Word → Prop) : Prop :=
  (∀ w, opOf w = op → decodeWord w = .instr (mk (rdOf w) (r1Of w) (r2Of w)))
    ∧ (∀ (c : Config) w, c.opc = OpcodeMap.standard → opOf w = op →
      dispatch c w = if c.caps.getLsbD 2 then decodeWord w else .unassigned op)
    ∧ ∀ rd r1 r2 s,
        (s.readReg r2 ≠ 0 → ∃ t v, exec (mk rd r1 r2) s = .next t
          ∧ P (s.readReg r1) (s.readReg r2) v ∧ OnlyReg s t rd v)
        ∧ (s.readReg r2 = 0 → exec (mk rd r1 r2) s = .next (s.trap 0))

/-- An S-shape divide, likewise. -/
def DividesS (op : Byte) (mk : Reg → Reg → BitVec 46 → Instr) (P : Word → Word → Word → Prop) :
    Prop :=
  (∀ w, opOf w = op → decodeWord w = .instr (mk (rdOf w) (r1Of w) (imm46Of w)))
    ∧ (∀ (c : Config) w, c.opc = OpcodeMap.standard → opOf w = op →
      dispatch c w = if c.caps.getLsbD 2 then decodeWord w else .unassigned op)
    ∧ ∀ rd r1 imm s,
        (imm ≠ 0 → ∃ t v, exec (mk rd r1 imm) s = .next t
          ∧ P (s.readReg r1) (imm.signExtend 64) v ∧ OnlyReg s t rd v)
        ∧ (imm = 0 → exec (mk rd r1 imm) s = .next (s.trap 0))

/-- A conditional branch: its opcode decodes to it with `a` from the `r1` field and `b` from the `rd`
field; it answers a next state in which `pc` alone may have changed, by the sign-extended offset
exactly when the condition holds. -/
def Branches (op : Byte) (mk : Reg → Reg → BitVec 46 → Instr) (P : Word → Word → Prop) : Prop :=
  (∀ w, opOf w = op → decodeWord w = .instr (mk (r1Of w) (rdOf w) (imm46Of w)))
    ∧ ∀ a b off s, ∃ t, exec (mk a b off) s = .next t
        ∧ (P (s.readReg a) (s.readReg b) → t.pc = s.pc + off.signExtend 64)
        ∧ (¬ P (s.readReg a) (s.readReg b) → t.pc = s.pc)
        ∧ SameRegs s t ∧ SameMem s t ∧ SameControl s t

/-- The bytes of a little-endian value of `n` bytes at `a`, as a sum (20_memory R61). -/
def bytesValue (m : Memory) (a n : Nat) : Nat :=
  ∑ k ∈ Finset.range n, (Memory.read m (a + k)).toNat * 2 ^ (8 * k)

/-- A load of `n` bytes: in bounds, `rd` takes the zero-extended little-endian value. -/
def Loads (op : Byte) (mk : Reg → Reg → BitVec 46 → Instr) (n : Nat) : Prop :=
  (∀ w, opOf w = op → decodeWord w = .instr (mk (rdOf w) (r1Of w) (imm46Of w)))
    ∧ ∀ rd r1 imm s, (s.readReg r1 + imm.signExtend 64).toNat + n ≤ s.cfg.memSize →
        ∃ t v, exec (mk rd r1 imm) s = .next t
          ∧ v.toNat = bytesValue s.mem (s.readReg r1 + imm.signExtend 64).toNat n
          ∧ OnlyReg s t rd v

/-- A store of `n` bytes: in bounds, byte `k` of the register lands at the effective address plus
`k`, every other byte and everything else stays. -/
def Stores (op : Byte) (mk : Reg → Reg → BitVec 46 → Instr) (n : Nat) : Prop :=
  (∀ w, opOf w = op → decodeWord w = .instr (mk (rdOf w) (r1Of w) (imm46Of w)))
    ∧ ∀ rd r1 imm s, (s.effAddr r1 imm).toNat + n ≤ s.cfg.memSize →
        ∃ t, exec (mk rd r1 imm) s = .next t
          ∧ (∀ k, k < n → Memory.read t.mem ((s.effAddr r1 imm).toNat + k)
              = (s.readReg rd).extractLsb' (8 * k) 8)
          ∧ (∀ a, (a < (s.effAddr r1 imm).toNat ∨ (s.effAddr r1 imm).toNat + n ≤ a) →
              Memory.read t.mem a = Memory.read s.mem a)
          ∧ SameRegs s t ∧ t.pc = s.pc ∧ SameControl s t

/-! ## Which instructions do what (10_state R20, R30) -/

/-- The instruction is a divide whose divisor is zero: a register that reads 0, or an immediate 0
(60_exceptions R307). -/
def DividesByZero (s : State) : Instr → Prop
  | .udiv _ _ r2 => s.readReg r2 = 0
  | .sdiv _ _ r2 => s.readReg r2 = 0
  | .udivi _ _ imm => imm = 0
  | .sdivi _ _ imm => imm = 0
  | _ => False

/-- The instruction may set `pc` to something other than `pc_next` (10_state R30). -/
def MayTransfer (s : State) : Instr → Prop
  | .jal _ _ => True
  | .jalr _ _ _ => True
  | .je a b _ => s.readReg a = s.readReg b
  | .jne a b _ => s.readReg a ≠ s.readReg b
  | .jgu a b _ => (s.readReg a).toNat > (s.readReg b).toNat
  | .jgs a b _ => (s.readReg a).toInt > (s.readReg b).toInt
  | .jleu a b _ => (s.readReg a).toNat ≤ (s.readReg b).toNat
  | .jles a b _ => (s.readReg a).toInt ≤ (s.readReg b).toInt
  | .pcall imm => imm ≠ BitVec.allOnes 51
  | .udiv _ _ r2 => s.readReg r2 = 0
  | .sdiv _ _ r2 => s.readReg r2 = 0
  | .udivi _ _ imm => imm = 0
  | .sdivi _ _ imm => imm = 0
  | _ => False

/-- The instruction may write memory: a store, or one that may take a trap (10_state R20). -/
def MayWriteMemory (s : State) : Instr → Prop
  | .stb _ _ _ => True
  | .sth _ _ _ => True
  | .stw _ _ _ => True
  | .std _ _ _ => True
  | .pcall imm => imm ≠ BitVec.allOnes 51
  | .udiv _ _ r2 => s.readReg r2 = 0
  | .sdiv _ _ r2 => s.readReg r2 = 0
  | .udivi _ _ imm => imm = 0
  | .sdivi _ _ imm => imm = 0
  | _ => False

end Sys2Proof.Machine
end

