-- ==== Sys2Proof/Certificates/Slice0/Obligations.lean ====
section
/-! DEFINITION. The statements for the provers. A statement about `exec` is about a state whose `pc`
is already `pc_next` (spec 40_fetch_decode_dispatch R132). Where a docstring says "spec decision
D<n>" (92_eei_decisions), the statement rests on a choice the spec marks as its own, and its basis is
'derived'. The opcode numbers and the field places of every decoding clause are the spec's D1 and D2
throughout, and the sign extension of every S-shape immediate is its D4. A clause with an opcode
number in it is about the map of R108 (`decodeWord`, or a configuration whose `OPC` is that map); a
clause about a step is about the map the configuration holds (30_encoding R106). -/

section

open Sys2Proof Sys2Proof.Machine

/-! ## Encoding -/

/-- 30_encoding R103: the projections are the bit fields of the word, on every word. -/
def Obligations.ProjectionsAreBitFields : Prop :=
  ∀ w : Word, (opOf w).toNat = w.toNat % 2 ^ 8 ∧ (r1Of w).val = w.toNat / 2 ^ 8 % 2 ^ 5
    ∧ (rdOf w).val = w.toNat / 2 ^ 13 % 2 ^ 5 ∧ (r2Of w).val = w.toNat / 2 ^ 18 % 2 ^ 5
    ∧ (imm46Of w).toNat = w.toNat / 2 ^ 18 ∧ (imm51Of w).toNat = w.toNat / 2 ^ 13

/-- 30_encoding R104 (its second half is the spec's derivation): fields of encoded words, and words
rebuilt from their fields; an R-shape word is rebuilt exactly when its reserved bits are zero. -/
def Obligations.CodecRoundTrips : Prop :=
  (∀ op r1 r2 rd, opOf (encodeR op r1 r2 rd) = op ∧ r1Of (encodeR op r1 r2 rd) = r1
      ∧ r2Of (encodeR op r1 r2 rd) = r2 ∧ rdOf (encodeR op r1 r2 rd) = rd)
    ∧ (∀ op r1 rd imm, opOf (encodeS op r1 rd imm) = op ∧ r1Of (encodeS op r1 rd imm) = r1
      ∧ rdOf (encodeS op r1 rd imm) = rd ∧ imm46Of (encodeS op r1 rd imm) = imm)
    ∧ (∀ op r1 imm, opOf (encodeL op r1 imm) = op ∧ r1Of (encodeL op r1 imm) = r1
      ∧ imm51Of (encodeL op r1 imm) = imm)
    ∧ ∀ w, encodeS (opOf w) (r1Of w) (rdOf w) (imm46Of w) = w
      ∧ encodeL (opOf w) (r1Of w) (imm51Of w) = w
      ∧ (encodeR (opOf w) (r1Of w) (r2Of w) (rdOf w) = w ↔ w.toNat / 2 ^ 23 = 0)

/-- 30_encoding R102 (the truncation of opcode and registers is the spec's derivation): arguments of
any size are truncated to their fields. -/
def Obligations.CodecTruncatesArguments : Prop :=
  (∀ op r1 r2 rd, encodeRNat op r1 r2 rd
      = encodeRNat (op % 2 ^ 8) (r1 % 2 ^ 5) (r2 % 2 ^ 5) (rd % 2 ^ 5)
      ∧ (opOf (encodeRNat op r1 r2 rd)).toNat = op % 2 ^ 8
      ∧ (r1Of (encodeRNat op r1 r2 rd)).val = r1 % 2 ^ 5
      ∧ (r2Of (encodeRNat op r1 r2 rd)).val = r2 % 2 ^ 5
      ∧ (rdOf (encodeRNat op r1 r2 rd)).val = rd % 2 ^ 5)
    ∧ (∀ op r1 rd imm, (opOf (encodeSNat op r1 rd imm)).toNat = op % 2 ^ 8
      ∧ (r1Of (encodeSNat op r1 rd imm)).val = r1 % 2 ^ 5
      ∧ (rdOf (encodeSNat op r1 rd imm)).val = rd % 2 ^ 5
      ∧ ((imm46Of (encodeSNat op r1 rd imm)).toNat : Int) = imm % 2 ^ 46)
    ∧ ∀ op r1 imm, (opOf (encodeLNat op r1 imm)).toNat = op % 2 ^ 8
      ∧ (r1Of (encodeLNat op r1 imm)).val = r1 % 2 ^ 5
      ∧ ((imm51Of (encodeLNat op r1 imm)).toNat : Int) = imm % 2 ^ 51

/-- Decode and encode agree, for every instruction with every operand, under every opcode map and
every capability set: the word of an instruction decodes to it, and the dispatch table gives it where
it is well formed and the unassigned opcode where its group is absent; the map of R108 is a map, and
gives every instruction a word (30_encoding R104, R106, 40_fetch_decode_dispatch R134; the numbers of
R108 are spec decision D1, the field places D2). -/
def Obligations.DecodeEncodeRoundTrip : Prop :=
  (∀ (c : Config) (i : Instr) (w : Word), c.opc.valid = true → encodeWith c.opc i = some w →
      decodeWith c.opc w = .instr i
      ∧ dispatch c w = if i.wellFormed c then .instr i else .unassigned (opOf w))
    ∧ OpcodeMap.standard.valid = true
    ∧ ∀ i : Instr, encodeWith OpcodeMap.standard i = some (encode i)
      ∧ decodeWord (encode i) = .instr i

/-- The opcodes R108 leaves without a mnemonic decode to no instruction, whatever the other bits, and
every other opcode decodes to one (30_encoding R108, R112; spec decision D1). -/
def Obligations.UnassignedOpcodesAreTheGaps : Prop :=
  ∀ w : Word,
    (decodeWord w = .unassigned (opOf w) ↔
      (0x1C ≤ (opOf w).toNat ∧ (opOf w).toNat ≤ 0x1F)
        ∨ (0x40 ≤ (opOf w).toNat ∧ (opOf w).toNat ≤ 0xFE))
    ∧ (decodeWord w ≠ .unassigned (opOf w) → ∃ i, decodeWord w = .instr i ∧ i.opcode = opOf w)

/-- The decoder reads only the bits an instruction uses (30_encoding R113; spec decision D3): bits 63:23
of an R-shape word, the `r2` field of `not` and `cnt`, the `r1` field of `pcall`, and every bit above
the opcode of `pbreak` and `halt` decide nothing. -/
def Obligations.IgnoredBitsAreIgnored : Prop :=
  (∀ (w w' : Word) (i : Instr), w.toNat % 2 ^ 23 = w'.toNat % 2 ^ 23 → decodeWord w = .instr i →
      i.shape = .r → decodeWord w' = .instr i)
    ∧ (∀ w w' : Word, (opOf w = 0x06 ∨ opOf w = 0x07) → w.toNat % 2 ^ 18 = w'.toNat % 2 ^ 18 →
      decodeWord w = decodeWord w')
    ∧ (∀ w w' : Word, opOf w = 0x3A → opOf w' = 0x3A → imm51Of w = imm51Of w' →
      decodeWord w = decodeWord w')
    ∧ ∀ w w' : Word, (opOf w = 0x3B ∨ opOf w = 0xFF) → opOf w = opOf w' →
      decodeWord w = decodeWord w'

/-- A few words and what they stand for (sanity; spec decisions D1, D2): four are words of the rules'
examples, and the `ldd` word is that of vector V-M5 (95_test_vectors section 3.5), whose opcode 0x23
is in 43_memory_control section 2. -/
def Obligations.ExampleWordsDecode : Prop :=
  decodeWord 0x0000000000086110 = .instr (.add 3 1 2)
    ∧ decodeWord 0xFFFFFFFFFFF46123 = .instr (.ldd 3 1 (-3))
    ∧ decodeWord 0x000000000040412A = .instr (.je 1 2 16)
    ∧ decodeWord 0xFFFFFFFFFFFFE03A = .instr (.pcall (-1))
    ∧ decodeWord 0x0000000000002338 = .instr (.lui 3 1)

/-- 42_arithmetic R194 (spec decisions D28, D35, D41): without `INT_DIV` the divide opcodes of R108 are
unassigned and execute as no-ops; this hardware's capability set has `INT_DIV`. -/
def Obligations.DividesWithoutIntDivAreNoOps : Prop :=
  (∀ s : State, s.Fetches → s.cfg.unknownOpcode = .nop → s.cfg.caps.getLsbD 2 = false →
      s.cfg.opc = OpcodeMap.standard →
      0x18 ≤ (opOf (s.load s.pc 8)).toNat → (opOf (s.load s.pc 8)).toNat ≤ 0x1B →
      ∃ t, step s = .next t ∧ t.pc = s.pc + 8 ∧ SameRegs s t ∧ SameMem s t ∧ SameControl s t)
    ∧ Config.hardware.caps.getLsbD 2 = true

/-- The capability bits gate exactly the groups of 10_state R36 (spec decisions D27, D28): bit 2 the
divides, bit 3 `pcall`, bit 6 the sets; every other assigned opcode is present under every set. Under
any other opcode map the gate goes with the mnemonic: a word is what the decoder reads from it if that
instruction's group is present, and unassigned otherwise (30_encoding R106, R112). -/
def Obligations.CapabilityBitsGateTheirGroups : Prop :=
  (∀ (c : Config) (w : Word), c.opc = OpcodeMap.standard →
    dispatch c w =
      if (0x18 ≤ (opOf w).toNat ∧ (opOf w).toNat ≤ 0x1B ∧ c.caps.getLsbD 2 = false)
        ∨ (opOf w = 0x3A ∧ c.caps.getLsbD 3 = false)
        ∨ (0x30 ≤ (opOf w).toNat ∧ (opOf w).toNat ≤ 0x37 ∧ c.caps.getLsbD 6 = false)
      then .unassigned (opOf w) else decodeWord w)
    ∧ ∀ (c : Config) (w : Word),
      (∀ i, decodeWith c.opc w = .instr i →
        dispatch c w = if i.mnemonic.presentIn c.caps then .instr i else .unassigned (opOf w))
      ∧ (∀ op, decodeWith c.opc w = .unassigned op → dispatch c w = .unassigned (opOf w))

/-- 30_encoding R96 (spec decision D4): `sext_46` keeps the field's 46 bits, copies bit 45 of the field
above them, and has the range `-2^45 .. 2^45 - 1`. -/
def Obligations.ImmediateSignIsBit45 : Prop :=
  ∀ imm : BitVec 46,
    (∀ k, k < 46 → (sext46 imm).getLsbD k = imm.getLsbD k)
    ∧ (∀ k, 46 ≤ k → k < 64 → (sext46 imm).getLsbD k = imm.getLsbD 45)
    ∧ -(2 ^ 45) ≤ (sext46 imm).toInt ∧ (sext46 imm).toInt ≤ 2 ^ 45 - 1

/-! ## The bitwise group -/

/-- 41_bitwise R151 to R156. -/
def Obligations.AndXorOrResults : Prop :=
  ComputesR 0x00 .and (fun a b v => ∀ k, v.getLsbD k = (a.getLsbD k && b.getLsbD k))
    ∧ ComputesS 0x01 .andi (fun a b v => ∀ k, v.getLsbD k = (a.getLsbD k && b.getLsbD k))
    ∧ ComputesR 0x02 .xor (fun a b v => ∀ k, v.getLsbD k = Bool.xor (a.getLsbD k) (b.getLsbD k))
    ∧ ComputesS 0x03 .xori (fun a b v => ∀ k, v.getLsbD k = Bool.xor (a.getLsbD k) (b.getLsbD k))
    ∧ ComputesR 0x04 .or (fun a b v => ∀ k, v.getLsbD k = (a.getLsbD k || b.getLsbD k))
    ∧ ComputesS 0x05 .ori (fun a b v => ∀ k, v.getLsbD k = (a.getLsbD k || b.getLsbD k))

/-- 41_bitwise R157, R158 (spec decision D7): `not` inverts all 64 bits; `cnt` counts the 1 bits. -/
def Obligations.NotAndCntResults : Prop :=
  (∀ w, opOf w = 0x06 → decodeWord w = .instr (.not (rdOf w) (r1Of w)))
    ∧ (∀ w, opOf w = 0x07 → decodeWord w = .instr (.cnt (rdOf w) (r1Of w)))
    ∧ ∀ rd r1 s,
      (∃ t v, exec (.not rd r1) s = .next t
        ∧ (∀ k, k < 64 → v.getLsbD k = !(s.readReg r1).getLsbD k) ∧ OnlyReg s t rd v)
      ∧ ∃ t v, exec (.cnt rd r1) s = .next t
        ∧ v.toNat = (Finset.univ.filter fun k : Fin 64 => (s.readReg r1).getLsbD k.val = true).card
        ∧ OnlyReg s t rd v

/-- 41_bitwise R160 to R163: bit `k` of a logical shift by the unsigned amount `n`, for every `n`;
amounts of 64 and more give 0. -/
def Obligations.LogicalShiftResults : Prop :=
  ComputesR 0x08 .lls
      (fun a b v => ∀ k, k < 64 → v.getLsbD k = (decide (b.toNat ≤ k) && a.getLsbD (k - b.toNat)))
    ∧ ComputesS 0x09 .llsi
      (fun a b v => ∀ k, k < 64 → v.getLsbD k = (decide (b.toNat ≤ k) && a.getLsbD (k - b.toNat)))
    ∧ ComputesR 0x0A .lrs (fun a b v => ∀ k, k < 64 → v.getLsbD k = a.getLsbD (k + b.toNat))
    ∧ ComputesS 0x0B .lrsi (fun a b v => ∀ k, k < 64 → v.getLsbD k = a.getLsbD (k + b.toNat))

/-- 41_bitwise R166, R167: bit `k` of an arithmetic right shift by any unsigned amount: copies of bit
63 enter from above, at every amount of 64 and more too. -/
def Obligations.ArithmeticRightShiftResults : Prop :=
  ComputesR 0x0E .ars
      (fun a b v => ∀ k, k < 64 → v.getLsbD k =
        if k + b.toNat < 64 then a.getLsbD (k + b.toNat) else a.getLsbD 63)
    ∧ ComputesS 0x0F .arsi
      (fun a b v => ∀ k, k < 64 → v.getLsbD k =
        if k + b.toNat < 64 then a.getLsbD (k + b.toNat) else a.getLsbD 63)

/-- 41_bitwise R164, R165 (spec decision D6): below 64 an arithmetic left shift is the logical one;
from 64 up it is the sign pattern where `ALS_OVERSHIFT` is sign_fill and zero where it is zero. -/
def Obligations.ArithmeticLeftShiftResults : Prop :=
  (∀ w, opOf w = 0x0C → decodeWord w = .instr (.als (rdOf w) (r1Of w) (r2Of w)))
    ∧ (∀ w, opOf w = 0x0D → decodeWord w = .instr (.alsi (rdOf w) (r1Of w) (imm46Of w)))
    ∧ ∀ rd r1 r2 imm s,
      (∃ t v, exec (.als rd r1 r2) s = .next t ∧ OnlyReg s t rd v ∧ ∀ k, k < 64 →
        v.getLsbD k =
          if (s.readReg r2).toNat < 64 then
            (decide ((s.readReg r2).toNat ≤ k)
              && (s.readReg r1).getLsbD (k - (s.readReg r2).toNat))
          else (decide (s.cfg.alsOvershift = .signFill) && (s.readReg r1).getLsbD 63))
      ∧ ∃ t v, exec (.alsi rd r1 imm) s = .next t ∧ OnlyReg s t rd v ∧ ∀ k, k < 64 →
        v.getLsbD k =
          if (imm.signExtend 64).toNat < 64 then
            (decide ((imm.signExtend 64).toNat ≤ k)
              && (s.readReg r1).getLsbD (k - (imm.signExtend 64).toNat))
          else (decide (s.cfg.alsOvershift = .signFill) && (s.readReg r1).getLsbD 63)

/-! ## The arithmetic group -/

/-- 42_arithmetic R181 to R184: sum and difference modulo 2^64. -/
def Obligations.AddAndSubResults : Prop :=
  ComputesR 0x10 .add (fun a b v => v.toNat = (a.toNat + b.toNat) % 2 ^ 64)
    ∧ ComputesS 0x11 .addi (fun a b v => v.toNat = (a.toNat + b.toNat) % 2 ^ 64)
    ∧ ComputesR 0x12 .sub (fun a b v => (v.toNat : Int) = ((a.toNat : Int) - b.toNat) % 2 ^ 64)
    ∧ ComputesS 0x13 .subi (fun a b v => (v.toNat : Int) = ((a.toNat : Int) - b.toNat) % 2 ^ 64)

/-- 42_arithmetic R185 to R188 (spec decision D9): the low 64 bits of the product, unsigned or signed;
both readings of both pairs, since they give the same bits. -/
def Obligations.MultiplyResults : Prop :=
  ComputesR 0x14 .umul (fun a b v => v.toNat = a.toNat * b.toNat % 2 ^ 64
      ∧ (v.toNat : Int) = a.toInt * b.toInt % 2 ^ 64)
    ∧ ComputesS 0x15 .umuli (fun a b v => v.toNat = a.toNat * b.toNat % 2 ^ 64
      ∧ (v.toNat : Int) = a.toInt * b.toInt % 2 ^ 64)
    ∧ ComputesR 0x16 .smul (fun a b v => (v.toNat : Int) = a.toInt * b.toInt % 2 ^ 64
      ∧ v.toNat = a.toNat * b.toNat % 2 ^ 64)
    ∧ ComputesS 0x17 .smuli (fun a b v => (v.toNat : Int) = a.toInt * b.toInt % 2 ^ 64
      ∧ v.toNat = a.toNat * b.toNat % 2 ^ 64)

/-- 42_arithmetic R190, R191: the floor of the unsigned quotient, or `Trap(0)`; both need `INT_DIV`
(spec decisions D11, D28). -/
def Obligations.UnsignedDivideResults : Prop :=
  DividesR 0x18 .udiv (fun a b v => v.toNat = a.toNat / b.toNat)
    ∧ DividesS 0x19 .udivi (fun a b v => v.toNat = a.toNat / b.toNat)

/-- 42_arithmetic R192, R193 (spec decision D10): the quotient is rounded toward zero: its remainder
is smaller than the divisor and has the dividend's sign; it is taken modulo 2^64. -/
def Obligations.SignedDivideResults : Prop :=
  DividesR 0x1A .sdiv (fun a b v => ∃ q r : Int, a.toInt = b.toInt * q + r
      ∧ r.natAbs < b.toInt.natAbs ∧ 0 ≤ r * a.toInt ∧ (v.toNat : Int) = q % 2 ^ 64)
    ∧ DividesS 0x1B .sdivi (fun a b v => ∃ q r : Int, a.toInt = b.toInt * q + r
      ∧ r.natAbs < b.toInt.natAbs ∧ 0 ≤ r * a.toInt ∧ (v.toNat : Int) = q % 2 ^ 64)

/-- 42_arithmetic R189 (the frame: spec decisions D25, D26, D43): each divide with a zero divisor
computes nothing and takes `Trap(0)`: the 32 registers and `pc_next` on the stack, `x[2]` dropped by
264, `pc` from vector entry 0. -/
def Obligations.DivideByZeroTakesTrapZero : Prop :=
  ∀ rd r1 r2 s, s.TrapFits 0 →
    (s.readReg r2 = 0 →
      (∃ t, exec (.udiv rd r1 r2) s = .next t ∧ TrapTaken s t 0)
        ∧ ∃ t, exec (.sdiv rd r1 r2) s = .next t ∧ TrapTaken s t 0)
    ∧ (∃ t, exec (.udivi rd r1 0) s = .next t ∧ TrapTaken s t 0)
    ∧ ∃ t, exec (.sdivi rd r1 0) s = .next t ∧ TrapTaken s t 0

/-! ## Memory -/

/-- 43_memory_control R213 (spec decisions D12, D14, D15): `ldd` reads the 8 bytes from the effective
address up, at any alignment. -/
def Obligations.DoubleWordLoadResults : Prop := Loads 0x23 .ldd 8

/-- 43_memory_control R210 to R212 (spec decision D12): the narrow loads, zero-extended. -/
def Obligations.NarrowLoadResults : Prop :=
  Loads 0x20 .ldb 1 ∧ Loads 0x21 .ldh 2 ∧ Loads 0x22 .ldw 4

/-- 43_memory_control R214 to R217 (spec decisions D13, D14): the four stores. -/
def Obligations.StoreResults : Prop :=
  Stores 0x24 .stb 1 ∧ Stores 0x25 .sth 2 ∧ Stores 0x26 .stw 4 ∧ Stores 0x27 .std 8

/-- 43_memory_control R207, R208, 60_exceptions R320 (spec decision D16): a load or store that is not
wholly in the buffer records the fault and halts, and changes nothing else. -/
def Obligations.OutOfBoundsLoadsAndStoresFault : Prop :=
  ∀ rd r1 imm s,
    (∀ n i, (n, i) ∈ [(1, Instr.ldb rd r1 imm), (2, .ldh rd r1 imm), (4, .ldw rd r1 imm),
        (8, .ldd rd r1 imm)] → s.cfg.memSize < (s.effAddr r1 imm).toNat + n →
      ∃ t, exec i s = .next t ∧ FaultsAt s t .load (s.effAddr r1 imm))
    ∧ ∀ n i, (n, i) ∈ [(1, Instr.stb rd r1 imm), (2, .sth rd r1 imm), (4, .stw rd r1 imm),
        (8, .std rd r1 imm)] → s.cfg.memSize < (s.effAddr r1 imm).toNat + n →
      ∃ t, exec i s = .next t ∧ FaultsAt s t .store (s.effAddr r1 imm)

/-- 20_memory R63 (the spec's derivation from R61): narrow reads of a stored double-word. -/
def Obligations.NarrowReadsSeeStoredBytes : Prop :=
  ∀ (s : State) (a v : Word), a.toNat + 8 ≤ 2 ^ 64 →
    (∀ k, k < 8 → (s.store a 8 v).load (a + BitVec.ofNat 64 k) 1
        = (v.extractLsb' (8 * k) 8).setWidth 64)
    ∧ (s.store a 8 v).load a 4 = (v.extractLsb' 0 32).setWidth 64
    ∧ (s.store a 8 v).load (a + 4) 4 = (v.extractLsb' 32 32).setWidth 64
    ∧ (s.store a 8 v).load a 8 = v

/-- 20_memory R75 (the spec's derivation from R72): a step that stores a double-word over the next
instruction is followed by a step that fetches the stored word. -/
def Obligations.StoredWordIsFetchedNext : Prop :=
  ∀ s t : State, ∀ rd r1 imm, s.Fetches → s.fetched = .instr (.std rd r1 imm) →
    s.effAddr r1 imm = s.pc + 8 → (s.pc + 8).toNat + 8 ≤ s.cfg.memSize → step s = .next t →
    t.pc = s.pc + 8 ∧ t.fetchWord = s.readReg rd ∧ t.Fetches

/-! ## Control flow -/

/-- 43_memory_control R220: `jal` links `pc_next` in its register field and adds the sign-extended
offset to `pc_next`. -/
def Obligations.JalLinksAndJumps : Prop :=
  (∀ w, opOf w = 0x28 → decodeWord w = .instr (.jal (r1Of w) (imm51Of w)))
    ∧ ∀ r off s, ∃ t, exec (.jal r off) s = .next t ∧ WritesReg s t r s.pc
      ∧ t.pc = s.pc + off.signExtend 64

/-- 43_memory_control R221 (spec decision D17): `jalr` jumps to the base as it was before the link. -/
def Obligations.JalrLinksAndJumps : Prop :=
  (∀ w, opOf w = 0x29 → decodeWord w = .instr (.jalr (rdOf w) (r1Of w) (imm46Of w)))
    ∧ ∀ rd r1 imm s, ∃ t, exec (.jalr rd r1 imm) s = .next t ∧ WritesReg s t rd s.pc
      ∧ t.pc = s.readReg r1 + imm.signExtend 64

/-- 43_memory_control R223 to R228 (spec decision D18): the six branches. -/
def Obligations.BranchesFollowTheirConditions : Prop :=
  Branches 0x2A .je (fun a b => a = b) ∧ Branches 0x2B .jne (fun a b => a ≠ b)
    ∧ Branches 0x2C .jgu (fun a b => a.toNat > b.toNat)
    ∧ Branches 0x2D .jgs (fun a b => a.toInt > b.toInt)
    ∧ Branches 0x2E .jleu (fun a b => a.toNat ≤ b.toNat)
    ∧ Branches 0x2F .jles (fun a b => a.toInt ≤ b.toInt)

/-! ## Sets, immediates, system -/

/-- 44_set_imm_trap_io R250 to R257 (spec decision D19): 1 when the condition holds and 0 when it does not. -/
def Obligations.ConditionalSetResults : Prop :=
  ComputesR 0x30 .setgu (fun a b v => v = if a.toNat > b.toNat then 1 else 0)
    ∧ ComputesS 0x31 .setgui (fun a b v => v = if a.toNat > b.toNat then 1 else 0)
    ∧ ComputesR 0x32 .setgs (fun a b v => v = if a.toInt > b.toInt then 1 else 0)
    ∧ ComputesS 0x33 .setgsi (fun a b v => v = if a.toInt > b.toInt then 1 else 0)
    ∧ ComputesR 0x34 .setleu (fun a b v => v = if a.toNat ≤ b.toNat then 1 else 0)
    ∧ ComputesS 0x35 .setleui (fun a b v => v = if a.toNat ≤ b.toNat then 1 else 0)
    ∧ ComputesR 0x36 .setles (fun a b v => v = if a.toInt ≤ b.toInt then 1 else 0)
    ∧ ComputesS 0x37 .setlesi (fun a b v => v = if a.toInt ≤ b.toInt then 1 else 0)

/-- 44_set_imm_trap_io R258 (spec decision D20): `lui` ORs the immediate onto bits 63:13 and keeps
every bit that was set. -/
def Obligations.LuiMergesByOr : Prop :=
  (∀ w, opOf w = 0x38 → decodeWord w = .instr (.lui (r1Of w) (imm51Of w)))
    ∧ ∀ r imm s, ∃ t v, exec (.lui r imm) s = .next t ∧ OnlyReg s t r v
      ∧ ∀ k, k < 64 →
        v.getLsbD k = ((s.readReg r).getLsbD k || (decide (13 ≤ k) && imm.getLsbD (k - 13)))

/-- 44_set_imm_trap_io R259 (spec decision D21): `auipc` adds the shifted immediate to `pc_next`. -/
def Obligations.AuipcAddsToPcNext : Prop :=
  (∀ w, opOf w = 0x39 → decodeWord w = .instr (.auipc (r1Of w) (imm51Of w)))
    ∧ ∀ r imm s, ∃ t v, exec (.auipc r imm) s = .next t ∧ OnlyReg s t r v
      ∧ v.toNat = (s.pc.toNat + imm.toNat * 2 ^ 13) % 2 ^ 64

/-- 44_set_imm_trap_io R265, R270 to R273 (spec decisions D30, D32): `pbreak` and the four port
instructions change no state at all. -/
def Obligations.BreakAndPortsChangeNothing : Prop :=
  ∀ rd r1 imm s, exec .pbreak s = .next s ∧ exec (.outb rd r1 imm) s = .next s
    ∧ exec (.outw rd r1 imm) s = .next s ∧ exec (.inb rd r1 imm) s = .next s
    ∧ exec (.inw rd r1 imm) s = .next s

/-- 10_state R52 (spec decisions D32, D37; the form of the output is the model's, log entry 6):
`break_sig` is 1 during a step that executes `pbreak`, whose opcode in the map of R108 is 0x3B, and 0
during every other step and outside a step. -/
def Obligations.BreakSignalMarksPbreak : Prop :=
  ∀ s : State, s.breakSig .idle = false
    ∧ (s.breakSig .stepping = true
      ↔ s.Fetches ∧ decodeWith s.cfg.opc (s.load s.pc 8) = .instr .pbreak)
    ∧ (s.cfg.opc = OpcodeMap.standard →
      (s.breakSig .stepping = true ↔ s.Fetches ∧ opOf (s.load s.pc 8) = 0x3B))

/-- 44_set_imm_trap_io R275 (spec decision D31): `halt` sets the halt flag and changes nothing else;
the run has then ended properly if it had no fault. -/
def Obligations.HaltSetsTheFlag : Prop :=
  ∀ s : State, ∃ t, exec .halt s = .next t ∧ t.halted = true ∧ t.pc = s.pc ∧ t.fault = s.fault
    ∧ t.intVector = s.intVector ∧ t.cfg = s.cfg ∧ t.haltReq = s.haltReq ∧ SameRegs s t ∧ SameMem s t
    ∧ t.exitCode = s.readReg 1

/-! ## Traps -/

/-- 60_exceptions R302 (spec decisions D25, D26, D40, D43): `Trap(n)`, when its frame and its vector
entry are in the buffer. -/
def Obligations.TrapSavesContextAndDispatches : Prop :=
  ∀ (s : State) (n : Word), s.TrapFits n → TrapTaken s (s.trap n) n

/-- 44_set_imm_trap_io R260 (spec decision D22): `pcall` with any number but all-ones is the trap of its
sign-extended immediate, in every state; where the frame and the vector entry are in the buffer the
trap is taken. -/
def Obligations.PcallTakesItsTrap : Prop :=
  (∀ w, opOf w = 0x3A → decodeWord w = .instr (.pcall (imm51Of w)))
    ∧ ∀ imm s, imm ≠ BitVec.allOnes 51 →
      exec (.pcall imm) s = .next (s.trap (imm.signExtend 64))
      ∧ (s.TrapFits (imm.signExtend 64) →
        ∃ t, exec (.pcall imm) s = .next t ∧ TrapTaken s t (imm.signExtend 64))

/-- 60_exceptions R321 (spec decision D44): the first frame slot out of bounds, then the vector entry,
is reported, and nothing is written. -/
def Obligations.TrapChecksBeforeWriting : Prop :=
  ∀ (s : State) (n : Word),
    (∀ k, k < 33 → (∀ j, j < k → (s.slotAddr j).toNat + 8 ≤ s.cfg.memSize) →
      s.cfg.memSize < (s.slotAddr k).toNat + 8 → FaultsAt s (s.trap n) .frame (s.slotAddr k))
    ∧ (s.FrameFits → s.cfg.memSize < (s.intVector + 8 * n).toNat + 8 →
      FaultsAt s (s.trap n) .vector (s.intVector + 8 * n))

/-- 60_exceptions R310 (spec decision D24): `pcall -1`, in each of its cases. -/
def Obligations.IntrospectionCases : Prop :=
  ∀ s : State, ∃ t, exec (.pcall (BitVec.allOnes 51)) s = .next t ∧ t.pc = s.pc ∧ SameMem s t
    ∧ t.halted = s.halted ∧ t.fault = s.fault ∧ t.cfg = s.cfg ∧ t.haltReq = s.haltReq
    ∧ (s.readReg 28 = 0 → s.readReg 29 = 0 → t.intVector = s.intVector
      ∧ ∀ r, t.readReg r = if r = 0 then 0 else if r = s.cfg.statusReg then 2
          else if r = 31 then s.cfg.intCount else s.readReg r)
    ∧ (s.readReg 28 = 0 → s.readReg 29 = 1 → t.intVector = s.readReg 31 ∧ SameRegs s t)
    ∧ (s.readReg 28 = 1 → t.intVector = s.intVector
      ∧ ∀ r, t.readReg r = if r = 0 then 0 else if r = s.cfg.statusReg then 0 else s.readReg r)
    ∧ (s.readReg 28 ≠ 1 → (s.readReg 28 = 0 → s.readReg 29 ≠ 0 ∧ s.readReg 29 ≠ 1) → t = s)

/-- 60_exceptions R307 (spec decision D41): a divide by zero, `udiv`, `sdiv`, `udivi` or `sdivi`, takes
its trap whether or not `SWI` is set. -/
def Obligations.DivideTrapIgnoresSwi : Prop :=
  ∀ (s : State) (i : Instr), s.Fetches → s.cfg.caps.getLsbD 2 = true →
    decodeWith s.cfg.opc (s.load s.pc 8) = .instr i → DividesByZero s i →
    (s.setPc (s.pc + 8)).TrapFits 0 →
    ∃ t, step s = .next t ∧ TrapTaken (s.setPc (s.pc + 8)) t 0

/-! ## The step -/

/-- When the bytes at `pc` decode to a well-formed instruction, the step is `exec` of it with `pc`
advanced by 8, and then `x[0] <- 0` (40_fetch_decode_dispatch section 1). -/
def Obligations.StepRunsTheDecodedInstruction : Prop :=
  ∀ (s : State) (i : Instr), s.Fetches → decodeWith s.cfg.opc (s.load s.pc 8) = .instr i →
    i.wellFormed s.cfg = true →
    step s = endStep (exec i (s.setPc (s.pc + 8)))
    ∧ ∀ t, exec i (s.setPc (s.pc + 8)) = .next t →
      step s = .next { t with regs := t.regs.set 0 0 }

/-- The other cases of the step, in its order (40_fetch_decode_dispatch R130, R131, R133 and 10_state R51;
spec decisions D16, D36). -/
def Obligations.StepWithoutAFetchedInstruction : Prop :=
  ∀ s : State,
    (s.halted = true → step s = .next s)
    ∧ (s.halted = false → s.haltReq = true → step s = .next { s with halted := true })
    ∧ (s.halted = false → s.haltReq = false → s.cfg.memSize < s.pc.toNat + 8 →
      ∃ t, step s = .next t ∧ FaultsAt s t .fetch s.pc)

/-- 40_fetch_decode_dispatch R136 (spec decision D35): an unassigned opcode executes nothing. -/
def Obligations.UnassignedOpcodeIsNoOp : Prop :=
  ∀ (s : State) (op : Byte), s.Fetches → s.cfg.unknownOpcode = .nop →
    dispatch s.cfg (s.load s.pc 8) = .unassigned op →
    ∃ t, step s = .next t ∧ t.pc = s.pc + 8 ∧ SameRegs s t ∧ SameMem s t ∧ SameControl s t

/-- 40_fetch_decode_dispatch R137: after every step that fetched a word `x[0]` holds 0, whatever it held
before and whatever the instruction wrote. -/
def Obligations.RegisterZeroIsClearedEveryStep : Prop :=
  ∀ s t : State, s.Fetches → step s = .next t → t.regs[0] = 0 ∧ t.readReg 0 = 0

/-- 10_state section 3 (R30): `pc` advances by 8 unless the instruction is one of those the rule lists,
and a taken branch adds its offset to that. That an unassigned opcode advances `pc` by 8 too is the
spec's decision D35 (40_fetch_decode_dispatch section 2, R136). -/
def Obligations.ProgramCounterMonotonicity : Prop :=
  ∀ s t : State, s.Fetches → step s = .next t →
    (∀ i, s.fetched = .instr i → ¬ MayTransfer s i → t.pc = s.pc + 8)
    ∧ (∀ op, s.fetched = .unassigned op → t.pc = s.pc + 8)
    ∧ ∀ a b off, (s.fetched = .instr (.je a b off) ∧ MayTransfer s (.je a b off)
          ∨ s.fetched = .instr (.jne a b off) ∧ MayTransfer s (.jne a b off)
          ∨ s.fetched = .instr (.jgu a b off) ∧ MayTransfer s (.jgu a b off)
          ∨ s.fetched = .instr (.jgs a b off) ∧ MayTransfer s (.jgs a b off)
          ∨ s.fetched = .instr (.jleu a b off) ∧ MayTransfer s (.jleu a b off)
          ∨ s.fetched = .instr (.jles a b off) ∧ MayTransfer s (.jles a b off)) →
        t.pc = s.pc + 8 + off.signExtend 64

/-- No instruction is refused and no meaning stops the model: `exec` answers a next state for every
instruction in every state, and so does `step` where `UNKNOWN_OPCODE` is nop
(40_fetch_decode_dispatch section 3: all conditions are state transitions). -/
def Obligations.EveryInstructionAnswersANextState : Prop :=
  (∀ (i : Instr) (s : State), ∃ t, exec i s = .next t)
    ∧ ∀ s : State, s.cfg.unknownOpcode = .nop → ∃ t, step s = .next t

/-! ## Whole-machine rules -/

/-- The halt flag is set only by `halt`, by `halt_req` and by a `BoundsFault` (which writes no register
and no memory), and no step clears it (10_state section 5, R40; spec decisions D16, D31, D37). -/
def Obligations.HaltFlagHasThreeCauses : Prop :=
  ∀ s t : State, step s = .next t →
    (s.halted = true → t = s)
    ∧ (s.halted = false → t.halted = true →
      s.haltReq = true ∨ s.fetched = .instr .halt
        ∨ (t.fault ≠ none ∧ SameRegs s t ∧ SameMem s t ∧ t.intVector = s.intVector))

/-- The fault record is written only together with the halt flag, and nothing clears it
(10_state section 5, R41; spec decision D16). -/
def Obligations.FaultRecordIsSticky : Prop :=
  ∀ s t : State, step s = .next t →
    (s.fault ≠ none → t.fault ≠ none) ∧ (t.fault ≠ s.fault → t.fault ≠ none ∧ t.halted = true)

/-- The vector base is written only by the introspection call with switch 0 and argument 1
(10_state section 5, R39; spec decisions D24, D34). -/
def Obligations.VectorBaseHasOneWriter : Prop :=
  ∀ s t : State, step s = .next t → t.intVector ≠ s.intVector →
    s.fetched = .instr (.pcall (BitVec.allOnes 51)) ∧ s.readReg 28 = 0 ∧ s.readReg 29 = 1
      ∧ t.intVector = s.readReg 31

/-- Nothing writes the capability descriptor or the other parameters, nor the input
(10_state section 5, R35; that a step keeps the input's level is the model's, log entry 5). -/
def Obligations.ConfigurationIsConstant : Prop :=
  ∀ s t : State, step s = .next t → t.cfg = s.cfg ∧ t.haltReq = s.haltReq

/-- Memory is written only by the stores and by the instructions that take a trap, and never at or
above `MEM_SIZE` (10_state section 1, the table of R20, and section 7; 20_memory section 2). -/
def Obligations.OnlyStoresAndTrapsWriteMemory : Prop :=
  ∀ s t : State, step s = .next t →
    ((∀ i, s.fetched = .instr i → ¬ MayWriteMemory s i) → SameMem s t)
    ∧ ∀ a, s.cfg.memSize ≤ a → Memory.read t.mem a = Memory.read s.mem a

/-- Every step keeps the invariant: `x[0]` holds 0, the memory is canonical and inside the buffer, a
fault implies a halt. (The canonical form is the model's, log entry 4; the rest is 10_state R22, R44
and 60_exceptions R320.) -/
def Obligations.StepKeepsTheInvariant : Prop :=
  ∀ s t : State, s.Inv → step s = .next t → t.Inv

/-- The invariant holds at reset (70_reset_and_hazards section 1; the values of the OPEN parameters are the
model's, log entries 3 and 4). -/
def Obligations.ResetMeetsTheInvariant : Prop := State.reset.Inv

/-- A core that is halted stays as it is for any number of steps, in particular after a `BoundsFault`
(40_fetch_decode_dispatch R131, 60_exceptions R320; spec decisions D16, D36). -/
def Obligations.HaltedCoreStaysPut : Prop :=
  ∀ (n : Nat) (s : State), s.halted = true → Host.Core.run core n s = .next s

/-! ## Reset and the host -/

/-- The reset of every launch that is not load-time fatal: R351, R352, R354, R356 and the registers of
70_reset_and_hazards R353 (its `REG_INIT`, spec decision D33), with the invariant, whose canonical
memory form is the model's choice (log entry 4). -/
def Obligations.LaunchGivesTheResetState : Prop :=
  ∀ (l : Launch) (s : State), l.start = some s →
    s.Inv ∧ s.pc = 0 ∧ s.readReg 31 = l.argc ∧ s.intVector = 0 ∧ s.halted = false ∧ s.fault = none
      ∧ s.cfg = l.cfg ∧ s.breakSig .idle = false ∧ s.readReg 0 = 0
      ∧ ∀ r : Reg, r ≠ 0 → r ≠ 31 → s.readReg r = l.regInit[r.val]

/-- 70_reset_and_hazards R354 for `State.reset` and every launch. -/
def Obligations.ResetClearsVectorHaltAndFault : Prop :=
  (State.reset.intVector = 0 ∧ State.reset.halted = false ∧ State.reset.fault = none)
    ∧ ∀ (l : Launch) (s : State), l.start = some s →
      s.intVector = 0 ∧ s.halted = false ∧ s.fault = none

/-- 70_reset_and_hazards R355 (spec decision D33 for `MEM_INIT`): the image from address 0, and above
it inside the buffer the bytes of `MEM_INIT`. -/
def Obligations.LaunchCopiesTheImage : Prop :=
  ∀ (l : Launch) (s : State), l.start = some s →
    (∀ k (h : k < l.image.length), Memory.read s.mem k = l.image[k])
    ∧ ∀ k, l.image.length ≤ k → k < l.cfg.memSize →
      Memory.read s.mem k = Memory.read (Memory.ofCells l.memInit) k

/-- 70_reset_and_hazards R357 (spec decision D45): which launches are load-time fatal. -/
def Obligations.FatalLaunches : Prop :=
  ∀ l : Launch, l.start = none ↔ ¬ (l.image.length % 8 = 0 ∧ l.image.length ≤ l.cfg.memSize
    ∧ 8 ≤ l.cfg.memSize ∧ l.cfg.memSize < 2 ^ 64)

/-- The host's writes between steps keep `x[0]`, the memory's form and the buffer's bounds, and change
neither the fault record nor the configuration (10_state section 9, R27, R54; spec decision D37). The
memory's canonical form is the model's choice (log entry 4), and so is the set of host writes
(log entry 13). -/
def Obligations.HostWritesKeepTheMachineSound : Prop :=
  ∀ (s t : State) (w : HostWrite), s.regs[0] = 0 → Memory.wf s.mem = true →
    Memory.within s.cfg.memSize s.mem = true → s.hostWrite w = some t →
    t.regs[0] = 0 ∧ Memory.wf t.mem = true ∧ Memory.within t.cfg.memSize t.mem = true
      ∧ t.fault = s.fault ∧ t.cfg = s.cfg

/-- The model's memory is determined by what it reads (log entry 4): canonical memories with the same
bytes are equal. -/
def Obligations.CanonicalMemoriesAreEqual : Prop :=
  ∀ m m' : Memory, Memory.wf m = true → Memory.wf m' = true →
    (∀ a, Memory.read m a = Memory.read m' a) → m = m'

end
end

