-- ==== Sys2Proof/Laws/Codec.lean ====
section
/-! SUPPORT. The fields of an encoded word (spec 30_encoding R99 to R104), and what an opcode decodes
to (R108, R112). -/

namespace Sys2Proof

@[simp] theorem Reg.ofBits_bits (r : Reg) : Reg.ofBits (Reg.bits r) = r := by
  apply Fin.ext
  simp [Reg.ofBits, Reg.bits]

@[simp] theorem Reg.bits_ofBits (b : BitVec 5) : Reg.bits (Reg.ofBits b) = b := by
  simp [Reg.ofBits, Reg.bits]

theorem Reg.bits_getLsbD_ge (r : Reg) {k : Nat} (h : 5 ≤ k) : (Reg.bits r).getLsbD k = false :=
  BitVec.getLsbD_of_ge _ _ h

/-- Bit `k` of an R-shape word. -/
theorem encodeR_getLsbD (op : Byte) (r1 r2 rd : Reg) (k : Nat) :
    (encodeR op r1 r2 rd).getLsbD k =
      if k < 8 then op.getLsbD k else if k < 13 then (Reg.bits r1).getLsbD (k - 8)
      else if k < 18 then (Reg.bits rd).getLsbD (k - 13) else (Reg.bits r2).getLsbD (k - 18) := by
  unfold encodeR
  simp only [BitVec.getLsbD_or, BitVec.getLsbD_shiftLeft, BitVec.getLsbD_setWidth]
  by_cases h1 : k < 8
  · simp [h1, show k < 13 by omega, show k < 18 by omega, show k < 64 by omega]
  · have e0 : op.getLsbD k = false := BitVec.getLsbD_of_ge _ _ (by omega)
    by_cases h2 : k < 13
    · simp [h1, h2, e0, show k < 18 by omega, show k < 64 by omega, show k - 8 < 64 by omega]
    · have e1 := Reg.bits_getLsbD_ge r1 (k := k - 8) (by omega)
      by_cases h3 : k < 18
      · simp [h1, h2, h3, e0, e1, show k < 64 by omega, show k - 13 < 64 by omega]
      · have e2 := Reg.bits_getLsbD_ge rd (k := k - 13) (by omega)
        by_cases h4 : k < 64
        · simp [h1, h2, h3, h4, e0, e1, e2, show k - 18 < 64 by omega]
        · have e3 := Reg.bits_getLsbD_ge r2 (k := k - 18) (by omega)
          simp [h1, h2, h3, e0, e1, e2, e3]

/-- Bit `k` of an S-shape word. -/
theorem encodeS_getLsbD (op : Byte) (r1 rd : Reg) (imm : BitVec 46) (k : Nat) :
    (encodeS op r1 rd imm).getLsbD k =
      if k < 8 then op.getLsbD k else if k < 13 then (Reg.bits r1).getLsbD (k - 8)
      else if k < 18 then (Reg.bits rd).getLsbD (k - 13) else imm.getLsbD (k - 18) := by
  unfold encodeS
  simp only [BitVec.getLsbD_or, BitVec.getLsbD_shiftLeft, BitVec.getLsbD_setWidth]
  by_cases h1 : k < 8
  · simp [h1, show k < 13 by omega, show k < 18 by omega, show k < 64 by omega]
  · have e0 : op.getLsbD k = false := BitVec.getLsbD_of_ge _ _ (by omega)
    by_cases h2 : k < 13
    · simp [h1, h2, e0, show k < 18 by omega, show k < 64 by omega, show k - 8 < 64 by omega]
    · have e1 := Reg.bits_getLsbD_ge r1 (k := k - 8) (by omega)
      by_cases h3 : k < 18
      · simp [h1, h2, h3, e0, e1, show k < 64 by omega, show k - 13 < 64 by omega]
      · have e2 := Reg.bits_getLsbD_ge rd (k := k - 13) (by omega)
        by_cases h4 : k < 64
        · simp [h1, h2, h3, h4, e0, e1, e2, show k - 18 < 64 by omega]
        · have e3 : imm.getLsbD (k - 18) = false := BitVec.getLsbD_of_ge _ _ (by omega)
          simp [h1, h2, h3, e0, e1, e2, e3]

/-- Bit `k` of an L-shape word. -/
theorem encodeL_getLsbD (op : Byte) (r1 : Reg) (imm : BitVec 51) (k : Nat) :
    (encodeL op r1 imm).getLsbD k =
      if k < 8 then op.getLsbD k else if k < 13 then (Reg.bits r1).getLsbD (k - 8)
      else imm.getLsbD (k - 13) := by
  unfold encodeL
  simp only [BitVec.getLsbD_or, BitVec.getLsbD_shiftLeft, BitVec.getLsbD_setWidth]
  by_cases h1 : k < 8
  · simp [h1, show k < 13 by omega, show k < 64 by omega]
  · have e0 : op.getLsbD k = false := BitVec.getLsbD_of_ge _ _ (by omega)
    by_cases h2 : k < 13
    · simp [h1, h2, e0, show k < 64 by omega, show k - 8 < 64 by omega]
    · have e1 := Reg.bits_getLsbD_ge r1 (k := k - 8) (by omega)
      by_cases h4 : k < 64
      · simp [h1, h2, h4, e0, e1, show k - 13 < 64 by omega]
      · have e3 : imm.getLsbD (k - 13) = false := BitVec.getLsbD_of_ge _ _ (by omega)
        simp [h1, h2, e0, e1, e3]

/-- A field is the value whose bits stand at its place in the word. -/
theorem extractLsb'_eq_of_getLsbD {w : Word} {start len : Nat} {v : BitVec len}
    (h : ∀ k, k < len → w.getLsbD (start + k) = v.getLsbD k) : w.extractLsb' start len = v := by
  apply BitVec.eq_of_getLsbD_eq
  intro k hk
  simp [hk, h k hk]

theorem opOf_encodeR (op : Byte) (r1 r2 rd : Reg) : opOf (encodeR op r1 r2 rd) = op :=
  extractLsb'_eq_of_getLsbD fun k hk => by simp [encodeR_getLsbD, hk]

theorem opOf_encodeS (op : Byte) (r1 rd : Reg) (imm : BitVec 46) :
    opOf (encodeS op r1 rd imm) = op :=
  extractLsb'_eq_of_getLsbD fun k hk => by simp [encodeS_getLsbD, hk]

theorem opOf_encodeL (op : Byte) (r1 : Reg) (imm : BitVec 51) : opOf (encodeL op r1 imm) = op :=
  extractLsb'_eq_of_getLsbD fun k hk => by simp [encodeL_getLsbD, hk]

theorem r1Of_encodeR (op : Byte) (r1 r2 rd : Reg) : r1Of (encodeR op r1 r2 rd) = r1 := by
  unfold r1Of
  rw [extractLsb'_eq_of_getLsbD (v := Reg.bits r1) fun k hk => ?_, Reg.ofBits_bits]
  simp [encodeR_getLsbD, show 8 + k < 13 by omega]

theorem r1Of_encodeS (op : Byte) (r1 rd : Reg) (imm : BitVec 46) :
    r1Of (encodeS op r1 rd imm) = r1 := by
  unfold r1Of
  rw [extractLsb'_eq_of_getLsbD (v := Reg.bits r1) fun k hk => ?_, Reg.ofBits_bits]
  simp [encodeS_getLsbD, show 8 + k < 13 by omega]

theorem r1Of_encodeL (op : Byte) (r1 : Reg) (imm : BitVec 51) :
    r1Of (encodeL op r1 imm) = r1 := by
  unfold r1Of
  rw [extractLsb'_eq_of_getLsbD (v := Reg.bits r1) fun k hk => ?_, Reg.ofBits_bits]
  simp [encodeL_getLsbD, show 8 + k < 13 by omega]

theorem rdOf_encodeR (op : Byte) (r1 r2 rd : Reg) : rdOf (encodeR op r1 r2 rd) = rd := by
  unfold rdOf
  rw [extractLsb'_eq_of_getLsbD (v := Reg.bits rd) fun k hk => ?_, Reg.ofBits_bits]
  simp [encodeR_getLsbD, show ¬ 13 + k < 8 by omega, show 13 + k < 18 by omega]

theorem rdOf_encodeS (op : Byte) (r1 rd : Reg) (imm : BitVec 46) :
    rdOf (encodeS op r1 rd imm) = rd := by
  unfold rdOf
  rw [extractLsb'_eq_of_getLsbD (v := Reg.bits rd) fun k hk => ?_, Reg.ofBits_bits]
  simp [encodeS_getLsbD, show ¬ 13 + k < 8 by omega, show 13 + k < 18 by omega]

theorem r2Of_encodeR (op : Byte) (r1 r2 rd : Reg) : r2Of (encodeR op r1 r2 rd) = r2 := by
  unfold r2Of
  rw [extractLsb'_eq_of_getLsbD (v := Reg.bits r2) fun k hk => ?_, Reg.ofBits_bits]
  simp [encodeR_getLsbD, show ¬ 18 + k < 8 by omega, show ¬ 18 + k < 13 by omega]

theorem imm46Of_encodeS (op : Byte) (r1 rd : Reg) (imm : BitVec 46) :
    imm46Of (encodeS op r1 rd imm) = imm :=
  extractLsb'_eq_of_getLsbD fun k hk => by
    simp [encodeS_getLsbD, show ¬ 18 + k < 8 by omega, show ¬ 18 + k < 13 by omega]

theorem imm51Of_encodeL (op : Byte) (r1 : Reg) (imm : BitVec 51) :
    imm51Of (encodeL op r1 imm) = imm :=
  extractLsb'_eq_of_getLsbD fun k hk => by
    simp [encodeL_getLsbD, show ¬ 13 + k < 8 by omega]

/-! ### Instructions and their words -/

@[simp] theorem Mnemonic.read_mnemonic (m : Mnemonic) (w : Word) : (m.read w).mnemonic = m := by
  cases m <;> rfl

/-- The low 8 bits of an instruction's word are the opcode it is given. -/
theorem opOf_encodeFields (op : Byte) (i : Instr) : opOf (encodeFields op i) = op := by
  cases i <;> simp only [encodeFields, opOf_encodeR, opOf_encodeS, opOf_encodeL]

/-- Reading an instruction's word under its mnemonic gives it back. -/
theorem read_encodeFields (op : Byte) (i : Instr) : i.mnemonic.read (encodeFields op i) = i := by
  cases i <;>
    simp only [Instr.mnemonic, Mnemonic.read, encodeFields, r1Of_encodeR, r2Of_encodeR,
      rdOf_encodeR, r1Of_encodeS, rdOf_encodeS, imm46Of_encodeS, r1Of_encodeL, imm51Of_encodeL]

/-! ### The opcode map -/

/-- An opcode that the map gives to a mnemonic is a row of the map. -/
theorem OpcodeMap.lookup_mem {opc : OpcodeMap} {op : Byte} {m : Mnemonic}
    (h : opc.lookup op = some m) : (op, m) ∈ opc := by
  induction opc with
  | nil => cases h
  | cons r opc ih =>
    unfold OpcodeMap.lookup at h
    split at h
    · rename_i e
      cases h
      rw [← e]
      exact List.mem_cons_self
    · exact List.mem_cons_of_mem _ (ih h)

/-- The opcode of a mnemonic is a row of the map. -/
theorem OpcodeMap.opcodeOf_mem {opc : OpcodeMap} {op : Byte} {m : Mnemonic}
    (h : opc.opcodeOf m = some op) : (op, m) ∈ opc := by
  induction opc with
  | nil => cases h
  | cons r opc ih =>
    unfold OpcodeMap.opcodeOf at h
    split at h
    · rename_i e
      cases h
      rw [← e]
      exact List.mem_cons_self
    · exact List.mem_cons_of_mem _ (ih h)

/-- Where no opcode stands twice, a row of the map is what looking its opcode up gives. -/
theorem OpcodeMap.lookup_of_mem {opc : OpcodeMap} {op : Byte} {m : Mnemonic}
    (hn : (opc.map Prod.fst).Nodup) (h : (op, m) ∈ opc) : opc.lookup op = some m := by
  induction opc with
  | nil => cases h
  | cons r opc ih =>
    rw [List.map_cons, List.nodup_cons] at hn
    unfold OpcodeMap.lookup
    rcases List.mem_cons.1 h with e | h
    · rw [← e, if_pos rfl]
    · have hne : r.1 ≠ op := fun e => hn.1 (List.mem_map.2 ⟨_, h, e.symm⟩)
      rw [if_neg hne, ih hn.2 h]

/-- Where no opcode stands twice, looking up the opcode of a mnemonic gives that mnemonic. -/
theorem OpcodeMap.lookup_opcodeOf {opc : OpcodeMap} {op : Byte} {m : Mnemonic}
    (hv : opc.valid = true) (h : opc.opcodeOf m = some op) : opc.lookup op = some m := by
  simp only [OpcodeMap.valid, Bool.and_eq_true, decide_eq_true_eq] at hv
  exact OpcodeMap.lookup_of_mem hv.1 (OpcodeMap.opcodeOf_mem h)

/-- The map of R108 gives every mnemonic the opcode of its row. -/
theorem OpcodeMap.standard_opcodeOf (m : Mnemonic) :
    OpcodeMap.standard.opcodeOf m = some m.row.opcode := by
  cases m <;> rfl

/-- The decoder's answer, by what the map gives for the word's opcode. -/
theorem decodeWith_of_lookup {opc : OpcodeMap} {w : Word} {m : Mnemonic}
    (h : opc.lookup (opOf w) = some m) : decodeWith opc w = .instr (m.read w) := by
  rw [decodeWith, h]

theorem decodeWith_of_lookup_none {opc : OpcodeMap} {w : Word} (h : opc.lookup (opOf w) = none) :
    decodeWith opc w = .unassigned (opOf w) := by
  rw [decodeWith, h]

/-- What the dispatch table gives: the decoder's instruction if its group is present. -/
theorem dispatch_eq (c : Config) (w : Word) : dispatch c w =
    match decodeWith c.opc w with
    | .instr i => if i.mnemonic.presentIn c.caps then .instr i else .unassigned (opOf w)
    | .unassigned op => .unassigned op := by
  unfold dispatch dispatchEntry decodeWith
  cases c.opc.lookup (opOf w) with
  | none => rfl
  | some m => cases hp : m.presentIn c.caps <;> simp [hp]

/-- The outcomes of the decoder: an instruction with the word's opcode, or a gap of the map R108. -/
def DecodesAsMapped (o : Byte) (d : Decoded) : Prop :=
  (o.toNat < 0x1C ∨ (0x20 ≤ o.toNat ∧ o.toNat < 0x40) ∨ o.toNat = 0xFF)
      ∧ (∃ i, d = .instr i ∧ i.opcode = o)
    ∨ ((0x1C ≤ o.toNat ∧ o.toNat ≤ 0x1F) ∨ (0x40 ≤ o.toNat ∧ o.toNat ≤ 0xFE)) ∧ d = .unassigned o

/-- The opcodes of R108 are those outside its gaps. -/
theorem Mnemonic.row_opcode_range (m : Mnemonic) : m.row.opcode.toNat < 0x1C
    ∨ (0x20 ≤ m.row.opcode.toNat ∧ m.row.opcode.toNat < 0x40) ∨ m.row.opcode.toNat = 0xFF := by
  cases m <;> decide

/-- Looking an opcode up in the map of R108 gives the mnemonic whose row has it, or a gap. -/
theorem OpcodeMap.standard_lookup_cases (o : Byte) :
    (∃ m : Mnemonic, OpcodeMap.standard.lookup o = some m ∧ m.row.opcode = o)
      ∨ OpcodeMap.standard.lookup o = none
        ∧ ((0x1C ≤ o.toNat ∧ o.toNat ≤ 0x1F) ∨ (0x40 ≤ o.toNat ∧ o.toNat ≤ 0xFE)) := by
  cases h : OpcodeMap.standard.lookup o with
  | some m =>
    obtain ⟨m', -, e⟩ := List.mem_map.1 (OpcodeMap.lookup_mem h)
    cases e
    exact .inl ⟨_, rfl, rfl⟩
  | none =>
    refine .inr ⟨rfl, ?_⟩
    obtain ⟨⟨n, hn⟩⟩ := o
    change (0x1C ≤ n ∧ n ≤ 0x1F) ∨ (0x40 ≤ n ∧ n ≤ 0xFE)
    by_contra hc
    have hr : n < 0x1C ∨ (0x20 ≤ n ∧ n < 0x40) ∨ n = 0xFF := by omega
    rcases hr with hr | ⟨h1, h2⟩ | rfl
    · interval_cases n <;> cases h
    · interval_cases n <;> cases h
    · cases h

/-- Every word decodes as the map R108 says its opcode does. -/
theorem decodeWord_cases (w : Word) : DecodesAsMapped (opOf w) (decodeWord w) := by
  obtain ⟨m, h, e⟩ | ⟨h, hg⟩ := OpcodeMap.standard_lookup_cases (opOf w)
  · refine .inl ⟨e ▸ m.row_opcode_range, _, decodeWith_of_lookup h, ?_⟩
    rw [Instr.opcode, Mnemonic.read_mnemonic, e]
  · exact .inr ⟨hg, decodeWith_of_lookup_none h⟩

end Sys2Proof
end

