-- ==== Sys2Proof/Laws/Memory.lean ====
section
/-! SUPPORT. The laws of the memory operations: read after write, the canonical form, and what a
little-endian access reads and leaves alone (spec 20_memory R61 to R64). -/

namespace Sys2Proof.Machine

/-! ### One byte -/

@[simp] theorem Memory.read_nil (a : Nat) : Memory.read [] a = Memory.unlisted := rfl

/-- Below the first entry every address reads as unlisted. -/
theorem Memory.read_of_startsAbove {m : Memory} {k a : Nat} (h : Memory.startsAbove k m = true)
    (ha : a ≤ k) : Memory.read m a = Memory.unlisted := by
  cases m with
  | nil => rfl
  | cons c m =>
    have hk : k < c.1 := of_decide_eq_true h
    have h1 : ¬ a = c.1 := by omega
    have h2 : a < c.1 := by omega
    simp [Memory.read, h1, h2]

/-- Dropping the entries up to `a` changes no read above `a`. -/
theorem Memory.read_dropWhile (m : Memory) (a b : Nat) :
    Memory.read (List.dropWhile (fun d => decide (d.1 ≤ a)) m) b
      = if b ≤ a then Memory.unlisted else Memory.read m b := by
  induction m with
  | nil => simp
  | cons c m ih =>
    by_cases hc : c.1 ≤ a
    · rw [List.dropWhile_cons_of_pos (by simpa using hc), ih]
      by_cases hb : b ≤ a
      · simp [hb]
      · have h1 : ¬ b = c.1 := by omega
        have h2 : ¬ b < c.1 := by omega
        simp [hb, Memory.read, h1, h2]
    · rw [List.dropWhile_cons_of_neg (by simpa using hc)]
      by_cases hb : b ≤ a
      · have h1 : ¬ b = c.1 := by omega
        have h2 : b < c.1 := by omega
        simp [hb, Memory.read, h1, h2]
      · simp [hb]

/-- Read after write, of every list of cells: the byte written there, the old byte elsewhere. -/
theorem Memory.read_write (m : Memory) (a b : Nat) (v : Byte) :
    Memory.read (Memory.write m a v) b = if b = a then v else Memory.read m b := by
  induction m with
  | nil =>
    by_cases hv : v = Memory.unlisted
    · simp [Memory.write, hv]
    · by_cases hb : b = a <;> simp [Memory.write, hv, Memory.read, hb]
  | cons c m ih =>
    unfold Memory.write
    by_cases h1 : a < c.1
    · by_cases hv : v = Memory.unlisted
      · by_cases hb : b = a
        · have h2 : ¬ a = c.1 := by omega
          simp [h1, hv, hb, Memory.read, h2]
        · simp [h1, hv, hb]
      · by_cases hb : b = a
        · simp [h1, hv, hb, Memory.read]
        · by_cases hlt : b < a
          · have h2 : ¬ b = c.1 := by omega
            have h3 : b < c.1 := by omega
            simp [h1, hv, hb, Memory.read, hlt, h2, h3]
          · simp [h1, hv, hb, Memory.read, hlt]
    · by_cases h2 : a = c.1
      · by_cases hv : v = Memory.unlisted
        · simp only [h2, hv, if_true, if_false, Memory.read_dropWhile, Memory.read, lt_irrefl]
          by_cases hb : b = c.1
          · simp [hb]
          · by_cases hlt : b < c.1
            · have h4 : b ≤ c.1 := by omega
              simp [hb, hlt, h4]
            · have h4 : ¬ b ≤ c.1 := by omega
              simp [hb, hlt, h4]
        · by_cases hb : b = c.1
          · simp [h2, hv, hb, Memory.read]
          · simp [h2, hv, hb, Memory.read]
      · simp only [h1, h2, if_false, Memory.read, ih]
        by_cases hb : b = c.1
        · have h3 : ¬ c.1 = a := by omega
          simp [hb, h3]
        · by_cases hlt : b < c.1
          · have h3 : ¬ b = a := by omega
            simp [hb, hlt, h3]
          · simp [hb, hlt]

@[simp] theorem Memory.read_write_same (m : Memory) (a : Nat) (v : Byte) :
    Memory.read (Memory.write m a v) a = v := by
  simp [Memory.read_write]

@[simp] theorem Memory.read_write_other (m : Memory) (a b : Nat) (v : Byte) (h : b ≠ a) :
    Memory.read (Memory.write m a v) b = Memory.read m b := by
  simp [Memory.read_write, h]

/-! ### The canonical form -/

theorem Memory.wf_cons (c : Host.Cell) (m : Memory) :
    Memory.wf (c :: m) = true
      ↔ c.2 ≠ Memory.unlisted ∧ Memory.startsAbove c.1 m = true ∧ Memory.wf m = true := by
  simp [Memory.wf, and_assoc]

/-- On a canonical list the drop of `Memory.write` drops nothing. -/
theorem Memory.dropWhile_of_startsAbove {m : Memory} {k : Nat}
    (h : Memory.startsAbove k m = true) :
    List.dropWhile (fun d : Host.Cell => decide (d.1 ≤ k)) m = m := by
  cases m with
  | nil => rfl
  | cons c m =>
    have hk : k < c.1 := of_decide_eq_true h
    exact List.dropWhile_cons_of_neg (by simpa using hk)

theorem Memory.startsAbove_write {m : Memory} {k a : Nat} {v : Byte}
    (h : Memory.startsAbove k m = true) (hw : Memory.wf m = true) (ha : k < a) :
    Memory.startsAbove k (Memory.write m a v) = true := by
  cases m with
  | nil => by_cases hv : v = Memory.unlisted <;> simp [Memory.write, Memory.startsAbove, hv, ha]
  | cons c m =>
    have hk : k < c.1 := of_decide_eq_true h
    obtain ⟨-, hs, -⟩ := (Memory.wf_cons c m).1 hw
    unfold Memory.write
    by_cases h1 : a < c.1
    · by_cases hv : v = Memory.unlisted <;> simp [h1, hv, Memory.startsAbove, ha, hk]
    · by_cases h2 : a = c.1
      · by_cases hv : v = Memory.unlisted
        · subst h2
          simp only [lt_irrefl, hv, if_true, if_false, Memory.dropWhile_of_startsAbove hs]
          cases m with
          | nil => rfl
          | cons d m =>
            have : c.1 < d.1 := of_decide_eq_true hs
            exact decide_eq_true (by omega)
        · simp [h2, hv, Memory.startsAbove, hk]
      · simp [h1, h2, Memory.startsAbove, hk]

/-- A write keeps the canonical form. -/
theorem Memory.wf_write {m : Memory} (hw : Memory.wf m = true) (a : Nat) (v : Byte) :
    Memory.wf (Memory.write m a v) = true := by
  induction m with
  | nil => by_cases hv : v = Memory.unlisted <;> simp [Memory.write, Memory.wf, hv, Memory.startsAbove]
  | cons c m ih =>
    obtain ⟨hc, hs, hm⟩ := (Memory.wf_cons c m).1 hw
    unfold Memory.write
    by_cases h1 : a < c.1
    · by_cases hv : v = Memory.unlisted
      · simpa [h1, hv] using hw
      · simp only [h1, hv, if_true, if_false]
        exact (Memory.wf_cons _ _).2 ⟨hv, decide_eq_true h1, hw⟩
    · by_cases h2 : a = c.1
      · by_cases hv : v = Memory.unlisted
        · subst h2
          simp only [lt_irrefl, hv, if_true, if_false, Memory.dropWhile_of_startsAbove hs]
          exact hm
        · rw [if_neg h1, if_pos h2, if_neg hv]
          exact (Memory.wf_cons (a, v) m).2 ⟨hv, by simpa [h2] using hs, hm⟩
      · simp only [h1, h2, if_false]
        exact (Memory.wf_cons _ _).2 ⟨hc, Memory.startsAbove_write hs hm (by omega), ih hm⟩

/-- A write inside a buffer keeps every entry inside it. -/
theorem Memory.within_write {m : Memory} {size a : Nat} (v : Byte)
    (h : Memory.within size m = true) (ha : a < size) :
    Memory.within size (Memory.write m a v) = true := by
  induction m with
  | nil => by_cases hv : v = Memory.unlisted <;> simp [Memory.write, Memory.within, hv, ha]
  | cons c m ih =>
    simp only [Memory.within, List.all_cons, Bool.and_eq_true, decide_eq_true_eq] at h ih
    unfold Memory.write
    by_cases h1 : a < c.1
    · by_cases hv : v = Memory.unlisted
      · simpa [h1, hv, Memory.within] using h
      · simpa [h1, hv, Memory.within, ha] using h
    · by_cases h2 : a = c.1
      · by_cases hv : v = Memory.unlisted
        · rw [if_neg h1, if_pos h2, if_pos hv]
          have hd := h.2
          unfold Memory.within
          rw [List.all_eq_true] at hd ⊢
          exact fun x hx => hd x (List.dropWhile_subset _ hx)
        · simpa [h1, h2, hv, Memory.within] using h
      · simpa [h1, h2, Memory.within] using And.intro h.1 (ih h.2)

/-! ### Several bytes -/

theorem Memory.wf_writeBytes {m : Memory} (hw : Memory.wf m = true) (a : Nat) (bs : List Byte) :
    Memory.wf (Memory.writeBytes m a bs) = true := by
  induction bs generalizing m a with
  | nil => exact hw
  | cons b bs ih => exact ih (Memory.wf_write hw a b) (a + 1)

theorem Memory.within_writeBytes {m : Memory} {size : Nat} {a : Nat} {bs : List Byte}
    (h : Memory.within size m = true) (ha : a + bs.length ≤ size) :
    Memory.within size (Memory.writeBytes m a bs) = true := by
  induction bs generalizing m a with
  | nil => exact h
  | cons b bs ih =>
    simp only [List.length_cons] at ha
    exact ih (Memory.within_write b h (by omega)) (by omega)

/-- What `writeBytes` leaves at every address: its byte inside the run, the old one outside. -/
theorem Memory.read_writeBytes (m : Memory) (a : Nat) (bs : List Byte) (b : Nat) :
    Memory.read (Memory.writeBytes m a bs) b
      = if h : a ≤ b ∧ b < a + bs.length then bs[b - a]'(by omega) else Memory.read m b := by
  induction bs generalizing m a with
  | nil =>
    have : ¬ (a ≤ b ∧ b < a + ([] : List Byte).length) := by simp
    simp only [Memory.writeBytes, this, dite_false]
  | cons v bs ih =>
    simp only [Memory.writeBytes, ih, List.length_cons]
    by_cases hb : b = a
    · subst hb
      have h2 : b ≤ b ∧ b < b + (bs.length + 1) := by omega
      simp [h2]
    · by_cases hin : a ≤ b ∧ b < a + (bs.length + 1)
      · have h1 : a + 1 ≤ b ∧ b < a + 1 + bs.length := by omega
        have h2 : b - a = (b - (a + 1)) + 1 := by omega
        simp only [h1, hin, and_self, dite_true, h2, List.getElem_cons_succ]
      · have h1 : ¬ (a + 1 ≤ b ∧ b < a + 1 + bs.length) := by omega
        simp only [h1, hin, dite_false]
        exact Memory.read_write_other m a b v hb

@[simp] theorem bytesLE_length (n v : Nat) : (bytesLE n v).length = n := by
  induction n generalizing v with
  | zero => rfl
  | succ n ih => simp [bytesLE, ih]

/-- Byte `k` of a number in little-endian order (R61). -/
theorem bytesLE_getElem (n v k : Nat) (h : k < (bytesLE n v).length) :
    (bytesLE n v)[k] = BitVec.ofNat 8 (v / 256 ^ k) := by
  induction n generalizing v k with
  | zero => simp at h
  | succ n ih =>
    cases k with
    | zero => simp [bytesLE]
    | succ k =>
      simp only [bytesLE, List.getElem_cons_succ]
      rw [ih, Nat.div_div_eq_div_mul, pow_succ, Nat.mul_comm]

@[simp] theorem Memory.bytesAt_length (m : Memory) (a n : Nat) :
    (Memory.bytesAt m a n).length = n := by
  induction n generalizing a with
  | zero => rfl
  | succ n ih => simp [Memory.bytesAt, ih]

/-- Reading bytes that agree gives the same bytes. -/
theorem Memory.bytesAt_congr {m m' : Memory} {a n : Nat}
    (h : ∀ b, a ≤ b → b < a + n → Memory.read m b = Memory.read m' b) :
    Memory.bytesAt m a n = Memory.bytesAt m' a n := by
  induction n generalizing a with
  | zero => rfl
  | succ n ih =>
    simp only [Memory.bytesAt]
    rw [h a (by omega) (by omega), ih (a := a + 1) fun b h1 h2 => h b (by omega) (by omega)]

/-- Writing bytes and reading them back gives them. -/
theorem Memory.bytesAt_writeBytes (m : Memory) (a : Nat) (bs : List Byte) :
    Memory.bytesAt (Memory.writeBytes m a bs) a bs.length = bs := by
  induction bs generalizing m a with
  | nil => rfl
  | cons b bs ih =>
    simp only [Memory.writeBytes, Memory.bytesAt, List.length_cons, ih]
    rw [Memory.read_writeBytes]
    simp

/-- The number bytes spell is the number they were made from, cut to their width (R61). -/
theorem numberLE_bytesLE (n v : Nat) : numberLE (bytesLE n v) = v % 256 ^ n := by
  induction n generalizing v with
  | zero => simp [bytesLE, numberLE, Nat.mod_one]
  | succ n ih =>
    have h : (BitVec.ofNat 8 v).toNat = v % 256 := BitVec.toNat_ofNat v 8
    simp only [bytesLE, numberLE, ih, h]
    rw [pow_succ, Nat.mul_comm (256 ^ n) 256, Nat.mod_mul]

theorem numberLE_lt (bs : List Byte) : numberLE bs < 256 ^ bs.length := by
  induction bs with
  | nil => simp [numberLE]
  | cons b bs ih =>
    have := b.isLt
    simp only [numberLE, List.length_cons, pow_succ]
    omega

/-! ### Little-endian accesses -/

theorem Memory.wf_storeLE {m : Memory} (hw : Memory.wf m = true) (a n v : Nat) :
    Memory.wf (Memory.storeLE m a n v) = true :=
  Memory.wf_writeBytes hw a _

theorem Memory.within_storeLE {m : Memory} {size a n v : Nat} (h : Memory.within size m = true)
    (ha : a + n ≤ size) : Memory.within size (Memory.storeLE m a n v) = true :=
  Memory.within_writeBytes h (by simpa using ha)

/-- What a store leaves at every address: its byte inside, the old byte outside (R61). -/
theorem Memory.read_storeLE (m : Memory) (a n v b : Nat) :
    Memory.read (Memory.storeLE m a n v) b
      = if a ≤ b ∧ b < a + n then BitVec.ofNat 8 (v / 256 ^ (b - a)) else Memory.read m b := by
  unfold Memory.storeLE
  rw [Memory.read_writeBytes]
  by_cases h : a ≤ b ∧ b < a + n
  · rw [dif_pos (by simpa using h), if_pos h, bytesLE_getElem]
  · rw [dif_neg (by simpa using h), if_neg h]

theorem Memory.loadLE_lt (m : Memory) (a n : Nat) : Memory.loadLE m a n < 256 ^ n := by
  have h := numberLE_lt (Memory.bytesAt m a n)
  rwa [Memory.bytesAt_length] at h

/-- A load of what was just stored there (20_memory R63). -/
theorem Memory.loadLE_storeLE (m : Memory) (a n v : Nat) :
    Memory.loadLE (Memory.storeLE m a n v) a n = v % 256 ^ n := by
  have h := Memory.bytesAt_writeBytes m a (bytesLE n v)
  rw [bytesLE_length] at h
  unfold Memory.loadLE Memory.storeLE
  rw [h, numberLE_bytesLE]

/-- A load that no stored byte touches. -/
theorem Memory.loadLE_storeLE_disjoint (m : Memory) (a n v b k : Nat)
    (h : b + k ≤ a ∨ a + n ≤ b) :
    Memory.loadLE (Memory.storeLE m a n v) b k = Memory.loadLE m b k := by
  unfold Memory.loadLE
  rw [Memory.bytesAt_congr fun x h1 h2 => ?_]
  rw [Memory.read_storeLE, if_neg (by omega)]

/-- `Memory.ofCells` builds a canonical memory. -/
theorem Memory.wf_ofCells (cells : List Host.Cell) : Memory.wf (Memory.ofCells cells) = true := by
  suffices h : ∀ m : Memory, Memory.wf m = true →
      Memory.wf (cells.foldl (fun m c => Memory.write m c.1 c.2) m) = true from h [] rfl
  induction cells with
  | nil => exact fun m hm => hm
  | cons c cells ih => exact fun m hm => ih _ (Memory.wf_write hm c.1 c.2)

end Sys2Proof.Machine
end

