-- ==== Sys2Proof/Laws/State.lean ====
section
/-! SUPPORT. One lemma per field and update of the state, so that no proof unfolds a record update,
and what a register reads after each update. -/

namespace Sys2Proof.Machine

/-! ### writeReg -/

@[simp] theorem State.writeReg_regs (s : State) (r : Reg) (v : Word) :
    (s.writeReg r v).regs = s.regs.set r.val v := rfl

@[simp] theorem State.writeReg_pc (s : State) (r : Reg) (v : Word) :
    (s.writeReg r v).pc = s.pc := rfl

@[simp] theorem State.writeReg_intVector (s : State) (r : Reg) (v : Word) :
    (s.writeReg r v).intVector = s.intVector := rfl

@[simp] theorem State.writeReg_halted (s : State) (r : Reg) (v : Word) :
    (s.writeReg r v).halted = s.halted := rfl

@[simp] theorem State.writeReg_fault (s : State) (r : Reg) (v : Word) :
    (s.writeReg r v).fault = s.fault := rfl

@[simp] theorem State.writeReg_mem (s : State) (r : Reg) (v : Word) :
    (s.writeReg r v).mem = s.mem := rfl

@[simp] theorem State.writeReg_cfg (s : State) (r : Reg) (v : Word) :
    (s.writeReg r v).cfg = s.cfg := rfl

@[simp] theorem State.writeReg_haltReq (s : State) (r : Reg) (v : Word) :
    (s.writeReg r v).haltReq = s.haltReq := rfl

/-! ### clearZero -/

@[simp] theorem State.clearZero_regs (s : State) :
    s.clearZero.regs = s.regs.set 0 0 := rfl

@[simp] theorem State.clearZero_pc (s : State) :
    s.clearZero.pc = s.pc := rfl

@[simp] theorem State.clearZero_intVector (s : State) :
    s.clearZero.intVector = s.intVector := rfl

@[simp] theorem State.clearZero_halted (s : State) :
    s.clearZero.halted = s.halted := rfl

@[simp] theorem State.clearZero_fault (s : State) :
    s.clearZero.fault = s.fault := rfl

@[simp] theorem State.clearZero_mem (s : State) :
    s.clearZero.mem = s.mem := rfl

@[simp] theorem State.clearZero_cfg (s : State) :
    s.clearZero.cfg = s.cfg := rfl

@[simp] theorem State.clearZero_haltReq (s : State) :
    s.clearZero.haltReq = s.haltReq := rfl

/-! ### setPc -/

@[simp] theorem State.setPc_regs (s : State) (t : Word) :
    (s.setPc t).regs = s.regs := rfl

@[simp] theorem State.setPc_pc (s : State) (t : Word) :
    (s.setPc t).pc = t := rfl

@[simp] theorem State.setPc_intVector (s : State) (t : Word) :
    (s.setPc t).intVector = s.intVector := rfl

@[simp] theorem State.setPc_halted (s : State) (t : Word) :
    (s.setPc t).halted = s.halted := rfl

@[simp] theorem State.setPc_fault (s : State) (t : Word) :
    (s.setPc t).fault = s.fault := rfl

@[simp] theorem State.setPc_mem (s : State) (t : Word) :
    (s.setPc t).mem = s.mem := rfl

@[simp] theorem State.setPc_cfg (s : State) (t : Word) :
    (s.setPc t).cfg = s.cfg := rfl

@[simp] theorem State.setPc_haltReq (s : State) (t : Word) :
    (s.setPc t).haltReq = s.haltReq := rfl

/-! ### setIntVector -/

@[simp] theorem State.setIntVector_regs (s : State) (v : Word) :
    (s.setIntVector v).regs = s.regs := rfl

@[simp] theorem State.setIntVector_pc (s : State) (v : Word) :
    (s.setIntVector v).pc = s.pc := rfl

@[simp] theorem State.setIntVector_intVector (s : State) (v : Word) :
    (s.setIntVector v).intVector = v := rfl

@[simp] theorem State.setIntVector_halted (s : State) (v : Word) :
    (s.setIntVector v).halted = s.halted := rfl

@[simp] theorem State.setIntVector_fault (s : State) (v : Word) :
    (s.setIntVector v).fault = s.fault := rfl

@[simp] theorem State.setIntVector_mem (s : State) (v : Word) :
    (s.setIntVector v).mem = s.mem := rfl

@[simp] theorem State.setIntVector_cfg (s : State) (v : Word) :
    (s.setIntVector v).cfg = s.cfg := rfl

@[simp] theorem State.setIntVector_haltReq (s : State) (v : Word) :
    (s.setIntVector v).haltReq = s.haltReq := rfl

/-! ### halt -/

@[simp] theorem State.halt_regs (s : State) :
    s.halt.regs = s.regs := rfl

@[simp] theorem State.halt_pc (s : State) :
    s.halt.pc = s.pc := rfl

@[simp] theorem State.halt_intVector (s : State) :
    s.halt.intVector = s.intVector := rfl

@[simp] theorem State.halt_halted (s : State) :
    s.halt.halted = true := rfl

@[simp] theorem State.halt_fault (s : State) :
    s.halt.fault = s.fault := rfl

@[simp] theorem State.halt_mem (s : State) :
    s.halt.mem = s.mem := rfl

@[simp] theorem State.halt_cfg (s : State) :
    s.halt.cfg = s.cfg := rfl

@[simp] theorem State.halt_haltReq (s : State) :
    s.halt.haltReq = s.haltReq := rfl

/-! ### setMem -/

@[simp] theorem State.setMem_regs (s : State) (m : Memory) :
    (s.setMem m).regs = s.regs := rfl

@[simp] theorem State.setMem_pc (s : State) (m : Memory) :
    (s.setMem m).pc = s.pc := rfl

@[simp] theorem State.setMem_intVector (s : State) (m : Memory) :
    (s.setMem m).intVector = s.intVector := rfl

@[simp] theorem State.setMem_halted (s : State) (m : Memory) :
    (s.setMem m).halted = s.halted := rfl

@[simp] theorem State.setMem_fault (s : State) (m : Memory) :
    (s.setMem m).fault = s.fault := rfl

@[simp] theorem State.setMem_mem (s : State) (m : Memory) :
    (s.setMem m).mem = m := rfl

@[simp] theorem State.setMem_cfg (s : State) (m : Memory) :
    (s.setMem m).cfg = s.cfg := rfl

@[simp] theorem State.setMem_haltReq (s : State) (m : Memory) :
    (s.setMem m).haltReq = s.haltReq := rfl

/-! ### raiseBounds -/

@[simp] theorem State.raiseBounds_regs (s : State) (k : AccessKind) (a : Word) :
    (s.raiseBounds k a).regs = s.regs := rfl

@[simp] theorem State.raiseBounds_pc (s : State) (k : AccessKind) (a : Word) :
    (s.raiseBounds k a).pc = s.pc := rfl

@[simp] theorem State.raiseBounds_intVector (s : State) (k : AccessKind) (a : Word) :
    (s.raiseBounds k a).intVector = s.intVector := rfl

@[simp] theorem State.raiseBounds_halted (s : State) (k : AccessKind) (a : Word) :
    (s.raiseBounds k a).halted = true := rfl

@[simp] theorem State.raiseBounds_fault (s : State) (k : AccessKind) (a : Word) :
    (s.raiseBounds k a).fault = some ⟨k, a⟩ := rfl

@[simp] theorem State.raiseBounds_mem (s : State) (k : AccessKind) (a : Word) :
    (s.raiseBounds k a).mem = s.mem := rfl

@[simp] theorem State.raiseBounds_cfg (s : State) (k : AccessKind) (a : Word) :
    (s.raiseBounds k a).cfg = s.cfg := rfl

@[simp] theorem State.raiseBounds_haltReq (s : State) (k : AccessKind) (a : Word) :
    (s.raiseBounds k a).haltReq = s.haltReq := rfl

/-! ### store -/

@[simp] theorem State.store_regs (s : State) (a : Word) (n : Nat) (v : Word) :
    (s.store a n v).regs = s.regs := rfl

@[simp] theorem State.store_pc (s : State) (a : Word) (n : Nat) (v : Word) :
    (s.store a n v).pc = s.pc := rfl

@[simp] theorem State.store_intVector (s : State) (a : Word) (n : Nat) (v : Word) :
    (s.store a n v).intVector = s.intVector := rfl

@[simp] theorem State.store_halted (s : State) (a : Word) (n : Nat) (v : Word) :
    (s.store a n v).halted = s.halted := rfl

@[simp] theorem State.store_fault (s : State) (a : Word) (n : Nat) (v : Word) :
    (s.store a n v).fault = s.fault := rfl

@[simp] theorem State.store_mem (s : State) (a : Word) (n : Nat) (v : Word) :
    (s.store a n v).mem = s.mem.storeLE a.toNat n v.toNat := rfl

@[simp] theorem State.store_cfg (s : State) (a : Word) (n : Nat) (v : Word) :
    (s.store a n v).cfg = s.cfg := rfl

@[simp] theorem State.store_haltReq (s : State) (a : Word) (n : Nat) (v : Word) :
    (s.store a n v).haltReq = s.haltReq := rfl

/-! ### advancePc -/

@[simp] theorem State.advancePc_regs (s : State) :
    s.advancePc.regs = s.regs := rfl

@[simp] theorem State.advancePc_pc (s : State) :
    s.advancePc.pc = s.pc + 8 := rfl

@[simp] theorem State.advancePc_intVector (s : State) :
    s.advancePc.intVector = s.intVector := rfl

@[simp] theorem State.advancePc_halted (s : State) :
    s.advancePc.halted = s.halted := rfl

@[simp] theorem State.advancePc_fault (s : State) :
    s.advancePc.fault = s.fault := rfl

@[simp] theorem State.advancePc_mem (s : State) :
    s.advancePc.mem = s.mem := rfl

@[simp] theorem State.advancePc_cfg (s : State) :
    s.advancePc.cfg = s.cfg := rfl

@[simp] theorem State.advancePc_haltReq (s : State) :
    s.advancePc.haltReq = s.haltReq := rfl

/-! ### Registers -/

@[simp] theorem State.readReg_zero (s : State) : s.readReg 0 = 0 := rfl

/-- What a register reads after a write: the value, but for `x[0]`, which reads 0. -/
theorem State.readReg_writeReg (s : State) (r q : Reg) (v : Word) :
    (s.writeReg r v).readReg q = if q = 0 then 0 else if q = r then v else s.readReg q := by
  by_cases hq : q = 0
  · simp [State.readReg, hq]
  · by_cases hr : q = r
    · simp [State.readReg, State.writeReg, hr]
    · have hv : ¬ (r.val = q.val) := fun h => hr (Fin.ext h.symm)
      simp only [State.readReg, State.writeReg, hq, hr, if_false]
      exact Vector.getElem_set_ne _ _ hv

@[simp] theorem State.readReg_writeReg_same (s : State) (r : Reg) (v : Word) (h : r ≠ 0) :
    (s.writeReg r v).readReg r = v := by
  simp [State.readReg_writeReg, h]

@[simp] theorem State.readReg_writeReg_other (s : State) (r q : Reg) (v : Word) (h : q ≠ r) :
    (s.writeReg r v).readReg q = s.readReg q := by
  by_cases hq : q = 0
  · simp [hq]
  · simp [State.readReg_writeReg, h, hq]

/-- Two states with the same register file read the same registers. -/
theorem State.readReg_congr {s t : State} (h : s.regs = t.regs) (r : Reg) :
    s.readReg r = t.readReg r := by
  unfold State.readReg
  rw [h]

@[simp] theorem State.readReg_clearZero (s : State) (r : Reg) :
    s.clearZero.readReg r = s.readReg r := by
  by_cases h : r = 0
  · simp [h]
  · have hv : ¬ (0 = r.val) := fun e => h (Fin.ext e.symm)
    simp only [State.readReg, State.clearZero, h, if_false]
    exact Vector.getElem_set_ne _ _ hv

@[simp] theorem State.clearZero_regs_zero (s : State) : s.clearZero.regs[0] = 0 := by
  simp [State.clearZero]

@[simp] theorem State.readReg_setPc (s : State) (t : Word) (r : Reg) :
    (s.setPc t).readReg r = s.readReg r := rfl

@[simp] theorem State.readReg_setIntVector (s : State) (v : Word) (r : Reg) :
    (s.setIntVector v).readReg r = s.readReg r := rfl

@[simp] theorem State.readReg_halt (s : State) (r : Reg) :
    s.halt.readReg r = s.readReg r := rfl

@[simp] theorem State.readReg_setMem (s : State) (m : Memory) (r : Reg) :
    (s.setMem m).readReg r = s.readReg r := rfl

@[simp] theorem State.readReg_raiseBounds (s : State) (k : AccessKind) (a : Word) (r : Reg) :
    (s.raiseBounds k a).readReg r = s.readReg r := rfl

@[simp] theorem State.readReg_store (s : State) (a : Word) (n : Nat) (v : Word) (r : Reg) :
    (s.store a n v).readReg r = s.readReg r := rfl

@[simp] theorem State.readReg_advancePc (s : State) (r : Reg) :
    s.advancePc.readReg r = s.readReg r := rfl

end Sys2Proof.Machine
end

