-- ==== Sys2Proof/Laws/Ops.lean ====
section
/-! SUPPORT. For each shared operation, one lemma that says everything it can do. -/

namespace Sys2Proof.Machine

/-! ### Bounds and bytes -/

theorem State.inBounds_iff (s : State) (a : Word) (n : Nat) :
    s.inBounds a n = true ↔ a.toNat + n ≤ s.cfg.memSize := by
  simp [State.inBounds]

/-- A store leaves its little-endian bytes and every other byte (spec 20_memory R61). -/
theorem State.store_read (s : State) (a : Word) (n : Nat) (v : Word) (b : Nat) :
    Memory.read (s.store a n v).mem b
      = if a.toNat ≤ b ∧ b < a.toNat + n then BitVec.ofNat 8 (v.toNat / 256 ^ (b - a.toNat))
        else Memory.read s.mem b :=
  Memory.read_storeLE _ _ _ _ _

/-- A load of the double-word just stored (20_memory R63). -/
theorem State.load_store_same (s : State) (a v : Word) : (s.store a 8 v).load a 8 = v := by
  have h := Memory.loadLE_storeLE s.mem a.toNat 8 v.toNat
  have hv : v.toNat % 256 ^ 8 = v.toNat := Nat.mod_eq_of_lt (by simpa using v.isLt)
  unfold State.load
  rw [State.store_mem, h, hv]
  simp

/-- A load that a store does not touch. -/
theorem State.load_store_disjoint (s : State) (a b v : Word) (n k : Nat)
    (h : b.toNat + k ≤ a.toNat ∨ a.toNat + n ≤ b.toNat) : (s.store a n v).load b k = s.load b k := by
  unfold State.load
  rw [State.store_mem, Memory.loadLE_storeLE_disjoint _ _ _ _ _ _ h]

theorem State.load_writeReg (s : State) (r : Reg) (v a : Word) (n : Nat) :
    (s.writeReg r v).load a n = s.load a n := rfl

/-! ### The operand forms -/

theorem sext46_inj {a b : BitVec 46} (h : sext46 a = sext46 b) : a = b := by
  have := congrArg BitVec.toInt h
  unfold sext46 at this
  rw [BitVec.toInt_signExtend_of_le (by omega), BitVec.toInt_signExtend_of_le (by omega)] at this
  exact BitVec.eq_of_toInt_eq this

/-- Only the zero immediate is a zero divisor (42_arithmetic R189). -/
theorem sext46_eq_zero (imm : BitVec 46) : sext46 imm = 0 ↔ imm = 0 :=
  ⟨fun h => sext46_inj (h.trans (by decide)), fun h => by rw [h]; decide⟩

theorem sext51_inj {a b : BitVec 51} (h : sext51 a = sext51 b) : a = b := by
  have := congrArg BitVec.toInt h
  unfold sext51 at this
  rw [BitVec.toInt_signExtend_of_le (by omega), BitVec.toInt_signExtend_of_le (by omega)] at this
  exact BitVec.eq_of_toInt_eq this

/-- Only the all-ones immediate is the introspection call (44_set_imm_trap_io R260). -/
theorem sext51_eq_allOnes (imm : BitVec 51) :
    sext51 imm = BitVec.allOnes 64 ↔ imm = BitVec.allOnes 51 :=
  ⟨fun h => sext51_inj (h.trans (by decide)), fun h => by rw [h]; decide⟩

theorem regForm_eq (f : Word → Word → Word) (rd r1 r2 : Reg) (s : State) :
    regForm f rd r1 r2 s = .next (s.writeReg rd (f (s.readReg r1) (s.readReg r2))) := rfl

theorem immForm_eq (f : Word → Word → Word) (rd r1 : Reg) (imm : BitVec 46) (s : State) :
    immForm f rd r1 imm s = .next (s.writeReg rd (f (s.readReg r1) (sext46 imm))) := rfl

/-- A divide traps on a zero divisor and writes its quotient on every other (42_arithmetic R189). -/
theorem divForm_cases (f : Word → Word → Word) (rd : Reg) (a b : Word) (s : State) :
    (b = 0 ∧ divForm f rd a b s = .next (s.trap 0))
      ∨ (b ≠ 0 ∧ divForm f rd a b s = .next (s.writeReg rd (f a b))) := by
  by_cases h : b = 0
  · exact .inl ⟨h, if_pos h⟩
  · exact .inr ⟨h, if_neg h⟩

theorem loadForm_cases (n : Nat) (rd r1 : Reg) (imm : BitVec 46) (s : State) :
    ((s.effAddr r1 imm).toNat + n ≤ s.cfg.memSize
        ∧ loadForm n rd r1 imm s = .next (s.writeReg rd (s.load (s.effAddr r1 imm) n)))
      ∨ (¬ (s.effAddr r1 imm).toNat + n ≤ s.cfg.memSize
        ∧ loadForm n rd r1 imm s = .next (s.raiseBounds .load (s.effAddr r1 imm))) := by
  by_cases h : s.inBounds (s.effAddr r1 imm) n = true
  · exact .inl ⟨(s.inBounds_iff _ _).1 h, if_pos h⟩
  · exact .inr ⟨fun e => h ((s.inBounds_iff _ _).2 e), if_neg h⟩

theorem storeForm_cases (n : Nat) (rd r1 : Reg) (imm : BitVec 46) (s : State) :
    ((s.effAddr r1 imm).toNat + n ≤ s.cfg.memSize
        ∧ storeForm n rd r1 imm s = .next (s.store (s.effAddr r1 imm) n (s.readReg rd)))
      ∨ (¬ (s.effAddr r1 imm).toNat + n ≤ s.cfg.memSize
        ∧ storeForm n rd r1 imm s = .next (s.raiseBounds .store (s.effAddr r1 imm))) := by
  by_cases h : s.inBounds (s.effAddr r1 imm) n = true
  · exact .inl ⟨(s.inBounds_iff _ _).1 h, if_pos h⟩
  · exact .inr ⟨fun e => h ((s.inBounds_iff _ _).2 e), if_neg h⟩

theorem branchForm_cases (cond : Word → Word → Bool) (a b : Reg) (off : BitVec 46) (s : State) :
    (cond (s.readReg a) (s.readReg b) = true
        ∧ branchForm cond a b off s = .next (s.setPc (s.branchTarget off)))
      ∨ (cond (s.readReg a) (s.readReg b) = false ∧ branchForm cond a b off s = .next s) := by
  cases h : cond (s.readReg a) (s.readReg b)
  · exact .inr ⟨rfl, by simp [branchForm, h]⟩
  · exact .inl ⟨rfl, by simp [branchForm, h]⟩

/-! ### Trap dispatch -/

/-- Pushing a frame changes the memory and nothing else. -/
theorem State.pushFrame_eq (s : State) (frame : List (Word × Word)) :
    s.pushFrame frame = s.setMem (s.pushFrame frame).mem := by
  induction frame generalizing s with
  | nil => rfl
  | cons slot frame ih =>
    have h := ih (s.store slot.1 8 slot.2)
    simp only [State.pushFrame]
    rw [h]
    rfl

@[simp] theorem State.pushFrame_regs (s : State) (frame : List (Word × Word)) :
    (s.pushFrame frame).regs = s.regs := by rw [s.pushFrame_eq]; rfl

@[simp] theorem State.pushFrame_pc (s : State) (frame : List (Word × Word)) :
    (s.pushFrame frame).pc = s.pc := by rw [s.pushFrame_eq]; rfl

@[simp] theorem State.pushFrame_intVector (s : State) (frame : List (Word × Word)) :
    (s.pushFrame frame).intVector = s.intVector := by rw [s.pushFrame_eq]; rfl

@[simp] theorem State.pushFrame_halted (s : State) (frame : List (Word × Word)) :
    (s.pushFrame frame).halted = s.halted := by rw [s.pushFrame_eq]; rfl

@[simp] theorem State.pushFrame_fault (s : State) (frame : List (Word × Word)) :
    (s.pushFrame frame).fault = s.fault := by rw [s.pushFrame_eq]; rfl

@[simp] theorem State.pushFrame_cfg (s : State) (frame : List (Word × Word)) :
    (s.pushFrame frame).cfg = s.cfg := by rw [s.pushFrame_eq]; rfl

@[simp] theorem State.pushFrame_haltReq (s : State) (frame : List (Word × Word)) :
    (s.pushFrame frame).haltReq = s.haltReq := by rw [s.pushFrame_eq]; rfl

@[simp] theorem State.readReg_pushFrame (s : State) (frame : List (Word × Word)) (r : Reg) :
    (s.pushFrame frame).readReg r = s.readReg r :=
  State.readReg_congr (s.pushFrame_regs frame) r

/-- A byte that no slot of a frame covers is not changed by pushing it. -/
theorem State.pushFrame_read_outside (s : State) (frame : List (Word × Word)) (b : Nat)
    (h : ∀ slot ∈ frame, b < slot.1.toNat ∨ slot.1.toNat + 8 ≤ b) :
    Memory.read (s.pushFrame frame).mem b = Memory.read s.mem b := by
  induction frame generalizing s with
  | nil => rfl
  | cons slot frame ih =>
    simp only [State.pushFrame]
    rw [ih _ fun x hx => h x (List.mem_cons_of_mem _ hx), State.store_read]
    have := h slot List.mem_cons_self
    rw [if_neg (by omega)]

theorem State.pushFrame_wf {s : State} (frame : List (Word × Word))
    (h : Memory.wf s.mem = true) : Memory.wf (s.pushFrame frame).mem = true := by
  induction frame generalizing s with
  | nil => exact h
  | cons slot frame ih =>
    exact ih (s := s.store slot.1 8 slot.2) (Memory.wf_storeLE h _ _ _)

theorem State.pushFrame_within {s : State} (frame : List (Word × Word))
    (hb : ∀ slot ∈ frame, slot.1.toNat + 8 ≤ s.cfg.memSize)
    (h : Memory.within s.cfg.memSize s.mem = true) :
    Memory.within s.cfg.memSize (s.pushFrame frame).mem = true := by
  induction frame generalizing s with
  | nil => exact h
  | cons slot frame ih =>
    exact ih (s := s.store slot.1 8 slot.2) (fun x hx => hb x (List.mem_cons_of_mem _ hx))
      (Memory.within_storeLE h (hb slot List.mem_cons_self))

/-- No bad slot: every slot of the frame is in bounds. -/
theorem State.badSlot_eq_none (s : State) (frame : List (Word × Word)) :
    s.badSlot frame = none ↔ ∀ slot ∈ frame, slot.1.toNat + 8 ≤ s.cfg.memSize := by
  simp [State.badSlot, State.inBounds]

/-- A trap that is taken, from its checks: the frame is pushed, the stack pointer drops by 264, and
the vector entry is read last (60_exceptions R302). -/
theorem State.trap_taken (s : State) (n : Word)
    (hf : ∀ slot ∈ s.trapFrame, slot.1.toNat + 8 ≤ s.cfg.memSize)
    (hv : (s.vectorEntry n).toNat + 8 ≤ s.cfg.memSize) :
    s.trap n
      = ((s.pushFrame s.trapFrame).writeReg spReg (s.readReg spReg - 264)).setPc
          ((s.pushFrame s.trapFrame).load (s.vectorEntry n) 8) := by
  have h1 := (s.badSlot_eq_none s.trapFrame).2 hf
  have h2 := (s.inBounds_iff (s.vectorEntry n) 8).2 hv
  simp only [State.trap, h1, h2, if_true, State.load_writeReg]

/-- The three outcomes of a trap (60_exceptions R302, R321). -/
theorem State.trap_cases (s : State) (n : Word) :
    (∃ a, s.badSlot s.trapFrame = some a ∧ s.trap n = s.raiseBounds .frame a)
      ∨ ((∀ slot ∈ s.trapFrame, slot.1.toNat + 8 ≤ s.cfg.memSize)
        ∧ ¬ (s.vectorEntry n).toNat + 8 ≤ s.cfg.memSize
        ∧ s.trap n = s.raiseBounds .vector (s.vectorEntry n))
      ∨ ((∀ slot ∈ s.trapFrame, slot.1.toNat + 8 ≤ s.cfg.memSize)
        ∧ (s.vectorEntry n).toNat + 8 ≤ s.cfg.memSize
        ∧ s.trap n = ((s.pushFrame s.trapFrame).writeReg spReg (s.readReg spReg - 264)).setPc
            ((s.pushFrame s.trapFrame).load (s.vectorEntry n) 8)) := by
  cases hb : s.badSlot s.trapFrame with
  | some a => exact .inl ⟨a, rfl, by simp [State.trap, hb]⟩
  | none =>
    have hf := (s.badSlot_eq_none s.trapFrame).1 hb
    by_cases hv : (s.vectorEntry n).toNat + 8 ≤ s.cfg.memSize
    · exact .inr (.inr ⟨hf, hv, s.trap_taken n hf hv⟩)
    · refine .inr (.inl ⟨hf, hv, ?_⟩)
      have h2 : ¬ s.inBounds (s.vectorEntry n) 8 = true := fun h => hv ((s.inBounds_iff _ _).1 h)
      simp [State.trap, hb, h2]

/-- The slots of the frame are the 33 addresses `sp0 - 8k` (60_exceptions R304). -/
theorem State.mem_trapFrame (s : State) (slot : Word × Word) :
    slot ∈ s.trapFrame
      ↔ (∃ r : Reg, slot = (frameSlot (s.readReg spReg) r.val, s.readReg r))
        ∨ slot = (frameSlot (s.readReg spReg) 32, s.pc) := by
  have hall : ∀ r : Reg, r ∈ allRegs := by decide
  constructor
  · intro h
    rcases List.mem_append.1 h with h | h
    · obtain ⟨r, -, rfl⟩ := List.mem_map.1 h
      exact .inl ⟨r, rfl⟩
    · exact .inr (List.mem_singleton.1 h)
  · rintro (⟨r, rfl⟩ | rfl)
    · exact List.mem_append_left _ (List.mem_map.2 ⟨r, hall r, rfl⟩)
    · exact List.mem_append_right _ (List.mem_singleton.2 rfl)

/-- A slot of a frame whose slots are disjoint reads back what was pushed into it. -/
theorem State.pushFrame_load_slot (s : State) {frame : List (Word × Word)} {slot : Word × Word}
    (hm : slot ∈ frame)
    (hd : frame.Pairwise fun x y =>
      x.1.toNat + 8 ≤ y.1.toNat ∨ y.1.toNat + 8 ≤ x.1.toNat) :
    (s.pushFrame frame).load slot.1 8 = slot.2 := by
  induction frame generalizing s with
  | nil => cases hm
  | cons x frame ih =>
    rw [List.pairwise_cons] at hd
    rcases List.mem_cons.1 hm with rfl | hm
    · have h : (s.pushFrame (slot :: frame)).load slot.1 8
          = (s.store slot.1 8 slot.2).load slot.1 8 := by
        simp only [State.pushFrame, State.load, Memory.loadLE]
        rw [Memory.bytesAt_congr]
        intro b h1 h2
        rw [State.pushFrame_read_outside]
        intro y hy
        have := hd.1 y hy
        omega
      rw [h, State.load_store_same]
    · exact ih _ hm hd.2

/-- Two slots of a trap frame share no byte, wherever the stack pointer stands (60_exceptions R304). -/
theorem frameSlot_disjoint (sp : Word) {i j : Nat} (hi : i < j) (hj : j < 33) :
    (frameSlot sp i).toNat + 8 ≤ (frameSlot sp j).toNat
      ∨ (frameSlot sp j).toNat + 8 ≤ (frameSlot sp i).toNat := by
  simp only [frameSlot, BitVec.toNat_sub, BitVec.toNat_ofNat]
  have := sp.isLt
  omega

theorem State.trapFrame_disjoint (s : State) :
    s.trapFrame.Pairwise fun x y =>
      x.1.toNat + 8 ≤ y.1.toNat ∨ y.1.toNat + 8 ≤ x.1.toNat := by
  unfold State.trapFrame
  rw [List.pairwise_append]
  refine ⟨?_, by simp, ?_⟩
  · rw [List.pairwise_map]
    have h : allRegs.Pairwise (· < ·) := by decide
    exact h.imp fun {a b} hab => frameSlot_disjoint _ hab (by omega)
  · intro a ha b hb
    obtain ⟨r, -, rfl⟩ := List.mem_map.1 ha
    rw [List.mem_singleton.1 hb]
    exact frameSlot_disjoint _ r.isLt (by omega)

/-! ### The introspection call -/

/-- The four outcomes of the introspection call (60_exceptions R310). -/
theorem State.introspect_cases (s : State) :
    (s.readReg 28 = 0 ∧ s.readReg 29 = 0
        ∧ s.introspect = (s.writeReg 31 s.cfg.intCount).writeReg s.cfg.statusReg 2)
      ∨ (s.readReg 28 = 0 ∧ s.readReg 29 = 1 ∧ s.introspect = s.setIntVector (s.readReg 31))
      ∨ (s.readReg 28 = 1 ∧ s.introspect = s.writeReg s.cfg.statusReg 0)
      ∨ (s.readReg 28 ≠ 1 ∧ (s.readReg 28 = 0 → s.readReg 29 ≠ 0 ∧ s.readReg 29 ≠ 1)
        ∧ s.introspect = s) := by
  unfold State.introspect
  by_cases h1 : s.readReg 28 = 0 ∧ s.readReg 29 = 0
  · exact .inl ⟨h1.1, h1.2, if_pos h1⟩
  · rw [if_neg h1]
    by_cases h2 : s.readReg 28 = 0 ∧ s.readReg 29 = 1
    · exact .inr (.inl ⟨h2.1, h2.2, if_pos h2⟩)
    · rw [if_neg h2]
      by_cases h3 : s.readReg 28 = 1
      · exact .inr (.inr (.inl ⟨h3, if_pos h3⟩))
      · exact .inr (.inr (.inr ⟨h3, fun h => ⟨fun e => h1 ⟨h, e⟩, fun e => h2 ⟨h, e⟩⟩, if_neg h3⟩))

end Sys2Proof.Machine
end

