-- ==== Sys2Proof/Laws/Step.lean ====
section
/-! SUPPORT. What one step can do (spec 40_fetch_decode_dispatch R130, R325). -/

namespace Sys2Proof.Machine

@[simp] theorem endStep_next (s : State) : endStep (.next s) = .next s.clearZero := rfl

/-- An end of step that gives a next state cleared `x[0]` of the meaning's next state. -/
theorem endStep_eq_next {r : Result} {t : State} (h : endStep r = .next t) :
    ∃ u, r = .next u ∧ t = u.clearZero := by
  cases r with
  | next u => exact ⟨u, rfl, by simpa using h.symm⟩
  | fault e => simp [endStep] at h
  | refused e => simp [endStep] at h

/-- A step that gives a next state: the core is halted; it is asked to halt; the fetch faults; an
instruction runs with `pc` advanced; or an unassigned opcode does nothing. -/
theorem step_cases {s t : State} (h : step s = .next t) :
    (s.halted = true ∧ t = s)
      ∨ (s.halted = false ∧ s.haltReq = true ∧ t = s.halt)
      ∨ (s.halted = false ∧ s.haltReq = false ∧ s.fetchInBounds = false
        ∧ t = s.raiseBounds .fetch s.pc)
      ∨ (s.halted = false ∧ s.haltReq = false ∧ s.fetchInBounds = true
        ∧ ∃ i u, s.fetched = .instr i ∧ exec i s.advancePc = .next u ∧ t = u.clearZero)
      ∨ (s.halted = false ∧ s.haltReq = false ∧ s.fetchInBounds = true
        ∧ ∃ op, s.fetched = .unassigned op ∧ s.cfg.unknownOpcode = .nop
          ∧ t = s.advancePc.clearZero) := by
  unfold step at h
  cases hh : s.halted with
  | true => exact .inl ⟨rfl, by simpa [hh] using h.symm⟩
  | false =>
    cases hr : s.haltReq with
    | true => exact .inr (.inl ⟨rfl, rfl, by simpa [hh, hr] using h.symm⟩)
    | false =>
      cases hb : s.fetchInBounds with
      | false => exact .inr (.inr (.inl ⟨rfl, rfl, rfl, by simpa [hh, hr, hb] using h.symm⟩))
      | true =>
        cases hd : s.fetched with
        | instr i =>
          simp only [hh, hr, hb, hd, if_true, Bool.false_eq_true, if_false] at h
          obtain ⟨u, hu, ht⟩ := endStep_eq_next h
          exact .inr (.inr (.inr (.inl ⟨rfl, rfl, rfl, i, u, rfl, hu, ht⟩)))
        | unassigned op =>
          simp only [hh, hr, hb, hd, if_true, Bool.false_eq_true, if_false] at h
          obtain ⟨u, hu, ht⟩ := endStep_eq_next h
          refine .inr (.inr (.inr (.inr ⟨rfl, rfl, rfl, op, rfl, ?_⟩)))
          cases hc : s.cfg.unknownOpcode with
          | nop =>
            simp only [unassignedOpcode, State.advancePc_cfg, hc] at hu
            refine ⟨rfl, ?_⟩
            rw [ht]
            exact congrArg State.clearZero (Host.Outcome.next.inj hu).symm
          | fault => simp [unassignedOpcode, hc] at hu

end Sys2Proof.Machine
end

