-- ==== Sys2Proof/Laws/Exec.lean ====
section
/-! SUPPORT. What an instruction can do, said once over all of them, from which the whole-machine
rules are derived instead of unfolding every meaning. -/

namespace Sys2Proof.Machine

/-- The shapes of an instruction's effect: nothing; one register; one register and a jump; a taken
branch; a store in bounds; a trap; the introspection call; the halt flag; a `BoundsFault`. -/
inductive Effect (i : Instr) (s : State) : State → Prop
  | none : Effect i s s
  | reg (r : Reg) (v : Word) : Effect i s (s.writeReg r v)
  | link (r : Reg) (v p : Word) (h : MayTransfer s i) : Effect i s ((s.writeReg r v).setPc p)
  | branch (p : Word) (h : MayTransfer s i) : Effect i s (s.setPc p)
  | store (a : Word) (n : Nat) (v : Word) (h : MayWriteMemory s i)
      (hb : a.toNat + n ≤ s.cfg.memSize) : Effect i s (s.store a n v)
  | trap (n : Word) (ht : MayTransfer s i) (hw : MayWriteMemory s i) : Effect i s (s.trap n)
  | introspect (h : i = .pcall (BitVec.allOnes 51)) : Effect i s s.introspect
  | halt (h : i = .halt) : Effect i s s.halt
  | fault (k : AccessKind) (a : Word) : Effect i s (s.raiseBounds k a)

/-- An instruction whose meaning is one of the two-operand forms has its one register effect. -/
theorem Effect.of_next {i : Instr} {s u t : State} {r : Result} (hr : r = .next u)
    (hu : Effect i s u) (h : r = .next t) : Effect i s t := by
  rw [hr] at h
  cases h
  exact hu

theorem Effect.of_div {i : Instr} {s t : State} (f : Word → Word → Word) (rd : Reg) (a b : Word)
    (ht : b = 0 → MayTransfer s i) (hw : b = 0 → MayWriteMemory s i)
    (h : divForm f rd a b s = .next t) : Effect i s t := by
  rcases divForm_cases f rd a b s with ⟨hb, e⟩ | ⟨-, e⟩
  · exact .of_next e (.trap 0 (ht hb) (hw hb)) h
  · exact .of_next e (.reg _ _) h

theorem Effect.of_load {i : Instr} {s t : State} (n : Nat) (rd r1 : Reg) (imm : BitVec 46)
    (h : loadForm n rd r1 imm s = .next t) : Effect i s t := by
  rcases loadForm_cases n rd r1 imm s with ⟨-, e⟩ | ⟨-, e⟩
  · exact .of_next e (.reg _ _) h
  · exact .of_next e (.fault _ _) h

theorem Effect.of_store {i : Instr} {s t : State} (n : Nat) (rd r1 : Reg) (imm : BitVec 46)
    (hw : MayWriteMemory s i) (h : storeForm n rd r1 imm s = .next t) : Effect i s t := by
  rcases storeForm_cases n rd r1 imm s with ⟨hb, e⟩ | ⟨-, e⟩
  · exact .of_next e (.store _ _ _ hw hb) h
  · exact .of_next e (.fault _ _) h

theorem Effect.of_branch {i : Instr} {s t : State} (cond : Word → Word → Bool) (a b : Reg)
    (off : BitVec 46) (ht : cond (s.readReg a) (s.readReg b) = true → MayTransfer s i)
    (h : branchForm cond a b off s = .next t) : Effect i s t := by
  rcases branchForm_cases cond a b off s with ⟨hc, e⟩ | ⟨-, e⟩
  · exact .of_next e (.branch _ (ht hc)) h
  · exact .of_next e .none h

/-- Every next state of an instruction is one of its effects. -/
theorem exec_effect {i : Instr} {s t : State} (h : exec i s = .next t) : Effect i s t := by
  cases i
  case udiv rd r1 r2 => exact .of_div aluUdiv rd _ (s.readReg r2) id id h
  case sdiv rd r1 r2 => exact .of_div aluSdiv rd _ (s.readReg r2) id id h
  case udivi rd r1 imm =>
    exact .of_div aluUdiv rd _ (sext46 imm) (sext46_eq_zero imm).1 (sext46_eq_zero imm).1 h
  case sdivi rd r1 imm =>
    exact .of_div aluSdiv rd _ (sext46 imm) (sext46_eq_zero imm).1 (sext46_eq_zero imm).1 h
  case ldb rd r1 imm => exact .of_load 1 rd r1 imm h
  case ldh rd r1 imm => exact .of_load 2 rd r1 imm h
  case ldw rd r1 imm => exact .of_load 4 rd r1 imm h
  case ldd rd r1 imm => exact .of_load 8 rd r1 imm h
  case stb rd r1 imm => exact .of_store 1 rd r1 imm trivial h
  case sth rd r1 imm => exact .of_store 2 rd r1 imm trivial h
  case stw rd r1 imm => exact .of_store 4 rd r1 imm trivial h
  case std rd r1 imm => exact .of_store 8 rd r1 imm trivial h
  case jal r off => exact .of_next rfl (.link _ _ _ trivial) h
  case jalr rd r1 imm => exact .of_next rfl (.link _ _ _ trivial) h
  case je a b off => exact .of_branch condE a b off (fun e => eq_of_beq e) h
  case jne a b off => exact .of_branch condNe a b off (fun e => ne_of_beq_false (by simpa [condNe] using e)) h
  case jgu a b off => exact .of_branch condGu a b off of_decide_eq_true h
  case jgs a b off => exact .of_branch condGs a b off of_decide_eq_true h
  case jleu a b off => exact .of_branch condLeu a b off of_decide_eq_true h
  case jles a b off => exact .of_branch condLes a b off of_decide_eq_true h
  case pcall imm =>
    by_cases hi : imm = BitVec.allOnes 51
    · exact .of_next (if_pos ((sext51_eq_allOnes imm).2 hi)) (.introspect (by rw [hi])) h
    · exact .of_next (if_neg fun e => hi ((sext51_eq_allOnes imm).1 e)) (.trap _ hi hi) h
  case halt => exact .of_next rfl (.halt rfl) h
  case pbreak => exact .of_next rfl .none h
  case outb => exact .of_next rfl .none h
  case outw => exact .of_next rfl .none h
  case inb => exact .of_next rfl .none h
  case inw => exact .of_next rfl .none h
  all_goals exact .of_next rfl (.reg _ _) h

end Sys2Proof.Machine
end

