-- ==== Sys2Proof/Laws/PerInstr.lean ====
section
/-! SUPPORT. Facts about every instruction as text, one lemma per instruction. -/

namespace Sys2Proof.Laws

/-- The low 8 bits of an instruction's word are its opcode (spec 30_encoding R90). -/
def OpcodeField.Statement (i : Instr) : Prop := opOf (encode i) = i.opcode

theorem OpcodeField.and (rd : Reg) (r1 : Reg) (r2 : Reg) : OpcodeField.Statement (.and rd r1 r2) :=
  opOf_encodeR _ _ _ _

theorem OpcodeField.andi (rd : Reg) (r1 : Reg) (imm : BitVec 46) : OpcodeField.Statement (.andi rd r1 imm) :=
  opOf_encodeS _ _ _ _

theorem OpcodeField.xor (rd : Reg) (r1 : Reg) (r2 : Reg) : OpcodeField.Statement (.xor rd r1 r2) :=
  opOf_encodeR _ _ _ _

theorem OpcodeField.xori (rd : Reg) (r1 : Reg) (imm : BitVec 46) : OpcodeField.Statement (.xori rd r1 imm) :=
  opOf_encodeS _ _ _ _

theorem OpcodeField.or (rd : Reg) (r1 : Reg) (r2 : Reg) : OpcodeField.Statement (.or rd r1 r2) :=
  opOf_encodeR _ _ _ _

theorem OpcodeField.ori (rd : Reg) (r1 : Reg) (imm : BitVec 46) : OpcodeField.Statement (.ori rd r1 imm) :=
  opOf_encodeS _ _ _ _

theorem OpcodeField.not (rd : Reg) (r1 : Reg) : OpcodeField.Statement (.not rd r1) :=
  opOf_encodeR _ _ _ _

theorem OpcodeField.cnt (rd : Reg) (r1 : Reg) : OpcodeField.Statement (.cnt rd r1) :=
  opOf_encodeR _ _ _ _

theorem OpcodeField.lls (rd : Reg) (r1 : Reg) (r2 : Reg) : OpcodeField.Statement (.lls rd r1 r2) :=
  opOf_encodeR _ _ _ _

theorem OpcodeField.llsi (rd : Reg) (r1 : Reg) (imm : BitVec 46) : OpcodeField.Statement (.llsi rd r1 imm) :=
  opOf_encodeS _ _ _ _

theorem OpcodeField.lrs (rd : Reg) (r1 : Reg) (r2 : Reg) : OpcodeField.Statement (.lrs rd r1 r2) :=
  opOf_encodeR _ _ _ _

theorem OpcodeField.lrsi (rd : Reg) (r1 : Reg) (imm : BitVec 46) : OpcodeField.Statement (.lrsi rd r1 imm) :=
  opOf_encodeS _ _ _ _

theorem OpcodeField.als (rd : Reg) (r1 : Reg) (r2 : Reg) : OpcodeField.Statement (.als rd r1 r2) :=
  opOf_encodeR _ _ _ _

theorem OpcodeField.alsi (rd : Reg) (r1 : Reg) (imm : BitVec 46) : OpcodeField.Statement (.alsi rd r1 imm) :=
  opOf_encodeS _ _ _ _

theorem OpcodeField.ars (rd : Reg) (r1 : Reg) (r2 : Reg) : OpcodeField.Statement (.ars rd r1 r2) :=
  opOf_encodeR _ _ _ _

theorem OpcodeField.arsi (rd : Reg) (r1 : Reg) (imm : BitVec 46) : OpcodeField.Statement (.arsi rd r1 imm) :=
  opOf_encodeS _ _ _ _

theorem OpcodeField.add (rd : Reg) (r1 : Reg) (r2 : Reg) : OpcodeField.Statement (.add rd r1 r2) :=
  opOf_encodeR _ _ _ _

theorem OpcodeField.addi (rd : Reg) (r1 : Reg) (imm : BitVec 46) : OpcodeField.Statement (.addi rd r1 imm) :=
  opOf_encodeS _ _ _ _

theorem OpcodeField.sub (rd : Reg) (r1 : Reg) (r2 : Reg) : OpcodeField.Statement (.sub rd r1 r2) :=
  opOf_encodeR _ _ _ _

theorem OpcodeField.subi (rd : Reg) (r1 : Reg) (imm : BitVec 46) : OpcodeField.Statement (.subi rd r1 imm) :=
  opOf_encodeS _ _ _ _

theorem OpcodeField.umul (rd : Reg) (r1 : Reg) (r2 : Reg) : OpcodeField.Statement (.umul rd r1 r2) :=
  opOf_encodeR _ _ _ _

theorem OpcodeField.umuli (rd : Reg) (r1 : Reg) (imm : BitVec 46) : OpcodeField.Statement (.umuli rd r1 imm) :=
  opOf_encodeS _ _ _ _

theorem OpcodeField.smul (rd : Reg) (r1 : Reg) (r2 : Reg) : OpcodeField.Statement (.smul rd r1 r2) :=
  opOf_encodeR _ _ _ _

theorem OpcodeField.smuli (rd : Reg) (r1 : Reg) (imm : BitVec 46) : OpcodeField.Statement (.smuli rd r1 imm) :=
  opOf_encodeS _ _ _ _

theorem OpcodeField.udiv (rd : Reg) (r1 : Reg) (r2 : Reg) : OpcodeField.Statement (.udiv rd r1 r2) :=
  opOf_encodeR _ _ _ _

theorem OpcodeField.udivi (rd : Reg) (r1 : Reg) (imm : BitVec 46) : OpcodeField.Statement (.udivi rd r1 imm) :=
  opOf_encodeS _ _ _ _

theorem OpcodeField.sdiv (rd : Reg) (r1 : Reg) (r2 : Reg) : OpcodeField.Statement (.sdiv rd r1 r2) :=
  opOf_encodeR _ _ _ _

theorem OpcodeField.sdivi (rd : Reg) (r1 : Reg) (imm : BitVec 46) : OpcodeField.Statement (.sdivi rd r1 imm) :=
  opOf_encodeS _ _ _ _

theorem OpcodeField.ldb (rd : Reg) (r1 : Reg) (imm : BitVec 46) : OpcodeField.Statement (.ldb rd r1 imm) :=
  opOf_encodeS _ _ _ _

theorem OpcodeField.ldh (rd : Reg) (r1 : Reg) (imm : BitVec 46) : OpcodeField.Statement (.ldh rd r1 imm) :=
  opOf_encodeS _ _ _ _

theorem OpcodeField.ldw (rd : Reg) (r1 : Reg) (imm : BitVec 46) : OpcodeField.Statement (.ldw rd r1 imm) :=
  opOf_encodeS _ _ _ _

theorem OpcodeField.ldd (rd : Reg) (r1 : Reg) (imm : BitVec 46) : OpcodeField.Statement (.ldd rd r1 imm) :=
  opOf_encodeS _ _ _ _

theorem OpcodeField.stb (rd : Reg) (r1 : Reg) (imm : BitVec 46) : OpcodeField.Statement (.stb rd r1 imm) :=
  opOf_encodeS _ _ _ _

theorem OpcodeField.sth (rd : Reg) (r1 : Reg) (imm : BitVec 46) : OpcodeField.Statement (.sth rd r1 imm) :=
  opOf_encodeS _ _ _ _

theorem OpcodeField.stw (rd : Reg) (r1 : Reg) (imm : BitVec 46) : OpcodeField.Statement (.stw rd r1 imm) :=
  opOf_encodeS _ _ _ _

theorem OpcodeField.std (rd : Reg) (r1 : Reg) (imm : BitVec 46) : OpcodeField.Statement (.std rd r1 imm) :=
  opOf_encodeS _ _ _ _

theorem OpcodeField.jal (r1 : Reg) (off : BitVec 51) : OpcodeField.Statement (.jal r1 off) :=
  opOf_encodeL _ _ _

theorem OpcodeField.jalr (rd : Reg) (r1 : Reg) (imm : BitVec 46) : OpcodeField.Statement (.jalr rd r1 imm) :=
  opOf_encodeS _ _ _ _

theorem OpcodeField.je (a : Reg) (b : Reg) (off : BitVec 46) : OpcodeField.Statement (.je a b off) :=
  opOf_encodeS _ _ _ _

theorem OpcodeField.jne (a : Reg) (b : Reg) (off : BitVec 46) : OpcodeField.Statement (.jne a b off) :=
  opOf_encodeS _ _ _ _

theorem OpcodeField.jgu (a : Reg) (b : Reg) (off : BitVec 46) : OpcodeField.Statement (.jgu a b off) :=
  opOf_encodeS _ _ _ _

theorem OpcodeField.jgs (a : Reg) (b : Reg) (off : BitVec 46) : OpcodeField.Statement (.jgs a b off) :=
  opOf_encodeS _ _ _ _

theorem OpcodeField.jleu (a : Reg) (b : Reg) (off : BitVec 46) : OpcodeField.Statement (.jleu a b off) :=
  opOf_encodeS _ _ _ _

theorem OpcodeField.jles (a : Reg) (b : Reg) (off : BitVec 46) : OpcodeField.Statement (.jles a b off) :=
  opOf_encodeS _ _ _ _

theorem OpcodeField.setgu (rd : Reg) (r1 : Reg) (r2 : Reg) : OpcodeField.Statement (.setgu rd r1 r2) :=
  opOf_encodeR _ _ _ _

theorem OpcodeField.setgui (rd : Reg) (r1 : Reg) (imm : BitVec 46) : OpcodeField.Statement (.setgui rd r1 imm) :=
  opOf_encodeS _ _ _ _

theorem OpcodeField.setgs (rd : Reg) (r1 : Reg) (r2 : Reg) : OpcodeField.Statement (.setgs rd r1 r2) :=
  opOf_encodeR _ _ _ _

theorem OpcodeField.setgsi (rd : Reg) (r1 : Reg) (imm : BitVec 46) : OpcodeField.Statement (.setgsi rd r1 imm) :=
  opOf_encodeS _ _ _ _

theorem OpcodeField.setleu (rd : Reg) (r1 : Reg) (r2 : Reg) : OpcodeField.Statement (.setleu rd r1 r2) :=
  opOf_encodeR _ _ _ _

theorem OpcodeField.setleui (rd : Reg) (r1 : Reg) (imm : BitVec 46) : OpcodeField.Statement (.setleui rd r1 imm) :=
  opOf_encodeS _ _ _ _

theorem OpcodeField.setles (rd : Reg) (r1 : Reg) (r2 : Reg) : OpcodeField.Statement (.setles rd r1 r2) :=
  opOf_encodeR _ _ _ _

theorem OpcodeField.setlesi (rd : Reg) (r1 : Reg) (imm : BitVec 46) : OpcodeField.Statement (.setlesi rd r1 imm) :=
  opOf_encodeS _ _ _ _

theorem OpcodeField.lui (r1 : Reg) (imm : BitVec 51) : OpcodeField.Statement (.lui r1 imm) :=
  opOf_encodeL _ _ _

theorem OpcodeField.auipc (r1 : Reg) (imm : BitVec 51) : OpcodeField.Statement (.auipc r1 imm) :=
  opOf_encodeL _ _ _

theorem OpcodeField.pcall (imm : BitVec 51) : OpcodeField.Statement (.pcall imm) :=
  opOf_encodeL _ _ _

theorem OpcodeField.pbreak : OpcodeField.Statement .pbreak :=
  opOf_encodeL _ _ _

theorem OpcodeField.outb (rd : Reg) (r1 : Reg) (imm : BitVec 46) : OpcodeField.Statement (.outb rd r1 imm) :=
  opOf_encodeS _ _ _ _

theorem OpcodeField.outw (rd : Reg) (r1 : Reg) (imm : BitVec 46) : OpcodeField.Statement (.outw rd r1 imm) :=
  opOf_encodeS _ _ _ _

theorem OpcodeField.inb (rd : Reg) (r1 : Reg) (imm : BitVec 46) : OpcodeField.Statement (.inb rd r1 imm) :=
  opOf_encodeS _ _ _ _

theorem OpcodeField.inw (rd : Reg) (r1 : Reg) (imm : BitVec 46) : OpcodeField.Statement (.inw rd r1 imm) :=
  opOf_encodeS _ _ _ _

theorem OpcodeField.halt : OpcodeField.Statement .halt :=
  opOf_encodeL _ _ _

end Sys2Proof.Laws
end

