-- ==== Sys2Proof/Tests/Slice0.lean ====
section
/-! SUPPORT. The model's own tests. Every expected value is the spec's: a worked example of a rule or
a vector of 95_test_vectors (named in the comment), computed there and not by this model. -/

namespace Sys2Proof.Tests

open Sys2Proof.Machine

/-! ## Decoding: each word as the spec writes it out -/

/-- The words of the rules' examples (30_encoding R108). -/
theorem test_decode_bitwise :
    [0x0000000000086100,
     0x0000000003FC6101,
     0x0000000000086102,
     0xFFFFFFFFFFFC6103,
     0x0000000000086104,
     0x0000000008D06105,
     0x0000000000006106,
     0x0000000000006107,
     0x0000000000086108,
     0x0000000000106109,
     0x000000000008610A,
     0x000000000010610B,
     0x000000000008610C,
     0x000000000100610D,
     0x000000000008610E,
     0x000000000010610F].map decodeWord =
    [.instr (.and 3 1 2),
     .instr (.andi 3 1 255),
     .instr (.xor 3 1 2),
     .instr (.xori 3 1 (-1)),
     .instr (.or 3 1 2),
     .instr (.ori 3 1 564),
     .instr (.not 3 1),
     .instr (.cnt 3 1),
     .instr (.lls 3 1 2),
     .instr (.llsi 3 1 4),
     .instr (.lrs 3 1 2),
     .instr (.lrsi 3 1 4),
     .instr (.als 3 1 2),
     .instr (.alsi 3 1 64),
     .instr (.ars 3 1 2),
     .instr (.arsi 3 1 4)] := by
  decide

/-- The words of the rules' examples (30_encoding R108). -/
theorem test_decode_arithmetic :
    [0x0000000000086110,
     0x8000000000006111,
     0x0000000000086112,
     0x00000000000C6113,
     0x0000000000086114,
     0xFFFFFFFFFFFC6115,
     0x0000000000086116,
     0xFFFFFFFFFFE46117,
     0x0000000000106118,
     0x0000000000286119,
     0x000000000008611A,
     0xFFFFFFFFFFF4611B].map decodeWord =
    [.instr (.add 3 1 2),
     .instr (.addi 3 1 (-35184372088832)),
     .instr (.sub 3 1 2),
     .instr (.subi 3 1 3),
     .instr (.umul 3 1 2),
     .instr (.umuli 3 1 (-1)),
     .instr (.smul 3 1 2),
     .instr (.smuli 3 1 (-7)),
     .instr (.udiv 3 1 4),
     .instr (.udivi 3 1 10),
     .instr (.sdiv 3 1 2),
     .instr (.sdivi 3 1 (-3))] := by
  decide

/-- The words of the rules' examples (30_encoding R108). -/
theorem test_decode_loads_stores :
    [0x0000000000206120,
     0x0000000000206121,
     0x0000000000206122,
     0x0000000000206123,
     0x0000000000206124,
     0x0000000000206125,
     0x0000000000206126,
     0x0000000000206127].map decodeWord =
    [.instr (.ldb 3 1 8),
     .instr (.ldh 3 1 8),
     .instr (.ldw 3 1 8),
     .instr (.ldd 3 1 8),
     .instr (.stb 3 1 8),
     .instr (.sth 3 1 8),
     .instr (.stw 3 1 8),
     .instr (.std 3 1 8)] := by
  decide

/-- The words of the rules' examples (30_encoding R108). -/
theorem test_decode_control :
    [0x0000000000040528,
     0x000000000010A129,
     0x000000000040412A,
     0x000000000040412B,
     0x000000000040412C,
     0x000000000040412D,
     0x000000000040412E,
     0x000000000040412F].map decodeWord =
    [.instr (.jal 5 32),
     .instr (.jalr 5 1 4),
     .instr (.je 1 2 16),
     .instr (.jne 1 2 16),
     .instr (.jgu 1 2 16),
     .instr (.jgs 1 2 16),
     .instr (.jleu 1 2 16),
     .instr (.jles 1 2 16)] := by
  decide

/-- The words of the rules' examples (30_encoding R108). -/
theorem test_decode_set_system :
    [0x0000000000086130,
     0x0000000000146131,
     0x0000000000086132,
     0xFFFFFFFFFFFC6133,
     0x0000000000086134,
     0xFFFFFFFFFFFC6135,
     0x0000000000086136,
     0x00000000001C6137,
     0x000000002468A338,
     0xFFFFFFFFFFFFE339,
     0x000000000000603A,
     0x000000000000003B,
     0x000000000014613C,
     0x000000000014613D,
     0x000000000014613E,
     0x000000000014613F,
     0x00000000000000FF].map decodeWord =
    [.instr (.setgu 3 1 2),
     .instr (.setgui 3 1 5),
     .instr (.setgs 3 1 2),
     .instr (.setgsi 3 1 (-1)),
     .instr (.setleu 3 1 2),
     .instr (.setleui 3 1 (-1)),
     .instr (.setles 3 1 2),
     .instr (.setlesi 3 1 7),
     .instr (.lui 3 0x12345),
     .instr (.auipc 3 (-1)),
     .instr (.pcall 3),
     .instr .pbreak,
     .instr (.outb 3 1 5),
     .instr (.outw 3 1 5),
     .instr (.inb 3 1 5),
     .instr (.inw 3 1 5),
     .instr .halt] := by
  decide

/-- R110, R112, R113: the zero word, the all-ones word, ignored bits, unassigned opcodes. -/
theorem test_decode_edges :
    [0x0000000000000000, 0xFFFFFFFFFFFFFFFF, 0xFFFFFFFFFF886106, 0xFFFFFFFFFFFFFF1C,
     0xFFFFFFFFFFFFFF40, 0xFFFFFFFFFFFFFFFE].map decodeWord =
    [.instr (.and 0 0 0), .instr .halt, .instr (.not 3 1), .unassigned 0x1C, .unassigned 0x40,
     .unassigned 0xFE] := by
  decide

/-- E1 of 95_test_vectors: the codec truncates each argument to its field (R102). -/
theorem test_codec_truncates :
    [encodeRNat 0x10 1 2 3, encodeRNat 0x1FF 33 0 0, encodeSNat 0x11 1 3 (2 ^ 46 + 5),
     encodeSNat 0x11 1 3 (2 ^ 45), encodeLNat 0x3A 0 (-1), encodeLNat 0x38 3 (2 ^ 50)] =
    [0x0000000000086110, 0x00000000000001FF, 0x0000000000146111, 0x8000000000006111,
     0xFFFFFFFFFFFFE03A, 0x8000000000000338] := by
  decide

/-- The bytes of `addi r1, r0, 5` (95_test_vectors, conventions) and one byte too few. -/
theorem test_decode_bytes :
    decodeTableWord 64 0x142011 = some (.addi 1 0 5)
      ∧ encodeBytes (.addi 1 0 5) = [0x11, 0x20, 0x14, 0, 0, 0, 0, 0]
      ∧ decodeTableWord 64 0x1C = none := by
  decide

/-- Assembler text (R116, R117). -/
theorem test_asm_text :
    [Instr.addi 1 0 5, .je 1 2 16, .subi 3 1 (-3), .halt].map Instr.asmText =
    ["addi r1, r0, 5", "je r1, r2, 16", "subi r3, r1, -3", "halt"] := by
  decide

/-! ## The opcode map as a parameter (R106; 93_implementation_defined U19, U20) -/

/-- The map of R108 with `add` moved to opcode 0x42. -/
def movedAdd : Config :=
  { Config.hardware with opc := (0x42, .add) :: OpcodeMap.standard.filter (fun r => r.2 ≠ .add) }

/-- A map that puts `add` at 0x42: the word with that opcode is the `add`, and 0x10 is unassigned. -/
theorem test_opc_moved :
    movedAdd.valid = true ∧ dispatch movedAdd 0x86142 = .instr (.add 3 1 2)
      ∧ dispatch movedAdd 0x86110 = .unassigned 0x10
      ∧ encodeWith movedAdd.opc (.add 3 1 2) = some 0x86142 := by
  decide +kernel

/-! ## Well-formedness: each check refuses an instruction (R36, R37, R106) -/

theorem test_wellFormed_intDiv :
    (Instr.udiv 3 1 2).wellFormed Config.hardware = true
      ∧ (Instr.udiv 3 1 2).wellFormed { Config.hardware with caps := 0x0048 } = false := by
  decide

theorem test_wellFormed_swi :
    (Instr.pcall 3).wellFormed Config.hardware = true
      ∧ (Instr.pcall 3).wellFormed { Config.hardware with caps := 0x0044 } = false := by
  decide

theorem test_wellFormed_condSet :
    (Instr.setgu 3 1 2).wellFormed Config.hardware = true
      ∧ (Instr.setgu 3 1 2).wellFormed { Config.hardware with caps := 0x000C } = false := by
  decide

/-- U19: a map without the S forms of the sets. -/
theorem test_wellFormed_no_opcode :
    (Instr.setgui 3 1 5).wellFormed Config.hardware = true
      ∧ (Instr.setgui 3 1 5).wellFormed { Config.hardware with
          opc := OpcodeMap.standard.filter (fun r => r.2 ≠ .setgui) } = false := by
  decide +kernel

/-! ## One step

`start word regs cells`: `State.reset` with registers and 64-bit memory values set and `word` at
`pc`. The conventions are those of 95_test_vectors. -/

def start (word : Nat) (regs : List (Reg × Word)) (cells : List (Nat × Word)) : State :=
  (cells.foldl (fun s c => s.store (BitVec.ofNat 64 c.1) 8 c.2)
    (regs.foldl (fun s c => s.writeReg c.1 c.2) State.reset)).withFetchWord 64 word

/-- A value of the state after one step. -/
def after {α : Type} (f : State → α) (s : State) : Option α :=
  match step s with
  | .next t => some (f t)
  | .fault _ => none
  | .refused _ => none

/-- A register and the program counter after one step. -/
def regPc (r : Reg) (s : State) : Option (Word × Word) := after (fun t => (t.readReg r, t.pc)) s

/-- A double-word of memory and the program counter after one step. -/
def memPc (a : Word) (s : State) : Option (Word × Word) := after (fun t => (t.load a 8, t.pc)) s

/-- The fault record, the halt flag, the program counter and a register after one step. -/
def faultOf (r : Reg) (s : State) : Option (Option BoundsFault × Bool × Word × Word) :=
  after (fun t => (t.fault, t.halted, t.pc, t.readReg r)) s

/-- R151. -/
theorem test_and :
    regPc 3 (start 0x86100 [(1, 0xFF00FF00FF00FF00), (2, 0x0FF00FF00FF00FF0)]
      []) = some (0x0F000F000F000F00, 8) := by
  decide

/-- V-B6. -/
theorem test_andi :
    regPc 3 (start 0x8000000000006101 [(1, 0xFFFFFFFFFFFFFFFF)]
      []) = some (0xFFFFE00000000000, 8) := by
  decide

/-- R153. -/
theorem test_xor :
    regPc 3 (start 0x86102 [(1, 0xFF00FF00FF00FF00), (2, 0x0FF00FF00FF00FF0)]
      []) = some (0xF0F0F0F0F0F0F0F0, 8) := by
  decide

/-- V-B16. -/
theorem test_xor_same :
    regPc 1 (start 0x42102 [(1, 0xFF00FF00FF00FF00)] []) = some (0, 8) := by
  decide

/-- V-B7. -/
theorem test_xori :
    regPc 3 (start 0xFFFFFFFFFFFC6103 [(1, 0xFF00FF00FF00FF00)]
      []) = some (0x00FF00FF00FF00FF, 8) := by
  decide

/-- R155. -/
theorem test_or :
    regPc 3 (start 0x86104 [(1, 0xFF00FF00FF00FF00), (2, 0x0FF00FF00FF00FF0)]
      []) = some (0xFFF0FFF0FFF0FFF0, 8) := by
  decide

/-- R156. -/
theorem test_ori :
    regPc 3 (start 0xFFFFFFFFFFF86105 [] []) = some (0xFFFFFFFFFFFFFFFE, 8) := by
  decide

/-- R157. -/
theorem test_not :
    regPc 3 (start 0x6106 [(1, 0x00000000FFFFFFFF)] []) = some (0xFFFFFFFF00000000, 8) := by
  decide

/-- R158. -/
theorem test_cnt :
    regPc 3 (start 0x6107 [(1, 0xF0F0000000000001)] []) = some (9, 8) := by
  decide

/-- V-B13. -/
theorem test_cnt_all :
    regPc 3 (start 0x6107 [(1, 0xFFFFFFFFFFFFFFFF)] []) = some (0x40, 8) := by
  decide

/-- R160. -/
theorem test_lls :
    regPc 3 (start 0x86108 [(1, 0x8000000000000001), (2, 4)] []) = some (0x10, 8) := by
  decide

/-- 95_test_vectors 3.2. -/
theorem test_lls_over :
    regPc 3 (start 0x86108 [(1, 0x8000000000000001), (2, 0xFFFFFFFFFFFFFFFF)]
      []) = some (0, 8) := by
  decide

/-- V-H2. -/
theorem test_llsi :
    regPc 3 (start 0xFFFFFFFFFFFC6109 [(1, 0xF123456789ABCDEF)] []) = some (0, 8) := by
  decide

/-- R162. -/
theorem test_lrs :
    regPc 3 (start 0x8610A [(1, 0x8000000000000001), (2, 4)]
      []) = some (0x0800000000000000, 8) := by
  decide

/-- V-H5. -/
theorem test_lrsi :
    regPc 3 (start 0xFC610B [(1, 0xF123456789ABCDEF)] []) = some (1, 8) := by
  decide

/-- R164. -/
theorem test_als :
    regPc 3 (start 0x8610C [(1, 0x8000000000000001), (2, 4)] []) = some (0x10, 8) := by
  decide

/-- 95_test_vectors 3.2. -/
theorem test_als_over :
    regPc 3 (start 0x8610C [(1, 0x8000000000000001), (2, 0x100000000)]
      []) = some (0xFFFFFFFFFFFFFFFF, 8) := by
  decide

/-- V-H14. -/
theorem test_alsi :
    regPc 3 (start 0x100610D [(1, 0x7123456789ABCDEF)] []) = some (0, 8) := by
  decide

/-- R166. -/
theorem test_ars :
    regPc 3 (start 0x8610E [(1, 0x8000000000000001), (2, 4)]
      []) = some (0xF800000000000000, 8) := by
  decide

/-- 95_test_vectors 3.2. -/
theorem test_ars_over :
    regPc 3 (start 0x8610E [(1, 0x8000000000000001), (2, 0x41)]
      []) = some (0xFFFFFFFFFFFFFFFF, 8) := by
  decide

/-- V-H10. -/
theorem test_arsi :
    regPc 3 (start 0x10610F [(1, 0xF123456789ABCDEF)] []) = some (0xFF123456789ABCDE, 8) := by
  decide

/-- V-A1. -/
theorem test_add_wraps :
    regPc 3 (start 0x86110 [(1, 0xFFFFFFFFFFFFFFFF), (2, 1)] []) = some (0, 8) := by
  decide

/-- V-A4. -/
theorem test_addi :
    regPc 3 (start 0x8000000000006111 [] []) = some (0xFFFFE00000000000, 8) := by
  decide

/-- V-A5. -/
theorem test_addi_zero_dest :
    regPc 0 (start 0x140011 [] []) = some (0, 8) := by
  decide

/-- R183. -/
theorem test_sub :
    regPc 3 (start 0x86112 [(1, 5), (2, 7)] []) = some (0xFFFFFFFFFFFFFFFE, 8) := by
  decide

/-- V-A9. -/
theorem test_subi :
    regPc 3 (start 0xFFFFFFFFFFF46113 [(1, 10)] []) = some (13, 8) := by
  decide

/-- R185. -/
theorem test_umul :
    regPc 3 (start 0x86114 [(1, 0xFFFFFFFF), (2, 0xFFFFFFFF)]
      []) = some (0xFFFFFFFE00000001, 8) := by
  decide

/-- V-A13. -/
theorem test_umuli :
    regPc 3 (start 0xFFFFFFFFFFFC6115 [(1, 5)] []) = some (0xFFFFFFFFFFFFFFFB, 8) := by
  decide

/-- R187. -/
theorem test_smul :
    regPc 3 (start 0x86116 [(1, 0xFFFFFFFFFFFFFFFD), (2, 7)]
      []) = some (0xFFFFFFFFFFFFFFEB, 8) := by
  decide

/-- R188. -/
theorem test_smuli :
    regPc 3 (start 0xFFFFFFFFFFE46117 [(1, 0xFFFFFFFFFFFFFFFD)] []) = some (21, 8) := by
  decide

/-- V-A17. -/
theorem test_udiv :
    regPc 3 (start 0x86118 [(1, 0xFFFFFFFFFFFFFFFF), (2, 2)]
      []) = some (0x7FFFFFFFFFFFFFFF, 8) := by
  decide

/-- V-A20. -/
theorem test_udivi :
    regPc 3 (start 0xFFFFFFFFFFFC6119 [(1, 0xFFFFFFFFFFFFFFFF)] []) = some (1, 8) := by
  decide

/-- V-A22. -/
theorem test_sdiv :
    regPc 3 (start 0x8611A [(1, 0xFFFFFFFFFFFFFFF9), (2, 2)]
      []) = some (0xFFFFFFFFFFFFFFFD, 8) := by
  decide

/-- V-A26. -/
theorem test_sdiv_overflow :
    regPc 3 (start 0x8611A [(1, 0x8000000000000000), (2, 0xFFFFFFFFFFFFFFFF)]
      []) = some (0x8000000000000000, 8) := by
  decide

/-- R193. -/
theorem test_sdivi :
    regPc 3 (start 0xFFFFFFFFFFF4611B [(1, 0xFFFFFFFFFFFFFFF6)] []) = some (3, 8) := by
  decide

/-- V-M6. -/
theorem test_ldb :
    regPc 3 (start 0x6120 [(1, 0x10F)] [(0x108, 0x8877665544332211)]) = some (0x88, 8) := by
  decide

/-- R211. -/
theorem test_ldh :
    regPc 3 (start 0x206121 [(1, 0x100)] [(0x108, 0x8877665544332211)]) = some (0x2211, 8) := by
  decide

/-- R212. -/
theorem test_ldw :
    regPc 3 (start 0x206122 [(1, 0x100)] [(0x108, 0x8877665544332211)]) = some (0x44332211, 8) := by
  decide

/-- V-M5. -/
theorem test_ldd_misaligned :
    regPc 3 (start 0xFFFFFFFFFFF46123 [(1, 0x110)]
      [(0x108, 0x8877665544332211), (0x110, 0xFFEEDDCCBBAA9988)]) = some (0xCCBBAA9988887766, 8) := by
  decide

/-- V-M9. -/
theorem test_stb :
    memPc 0x108 (start 0x206124 [(1, 0x100), (3, 0x1122334455667788)]
      [(0x108, 0xFFFFFFFFFFFFFFFF)]) = some (0xFFFFFFFFFFFFFF88, 8) := by
  decide

/-- V-M10. -/
theorem test_sth :
    memPc 0x108 (start 0x206125 [(1, 0x100), (3, 0x1122334455667788)]
      [(0x108, 0xFFFFFFFFFFFFFFFF)]) = some (0xFFFFFFFFFFFF7788, 8) := by
  decide

/-- V-M11. -/
theorem test_stw :
    memPc 0x108 (start 0x206126 [(1, 0x100), (3, 0x1122334455667788)]
      [(0x108, 0xFFFFFFFFFFFFFFFF)]) = some (0xFFFFFFFF55667788, 8) := by
  decide

/-- V-M13. -/
theorem test_std_misaligned :
    memPc 0x108 (start 0x146127 [(1, 0x100), (3, 0x1122334455667788)]
      []) = some (0x1122334455, 8) := by
  decide

/-- V-M14. -/
theorem test_std_zero :
    memPc 0x108 (start 0x200127 [(1, 0x100)] [(0x108, 0xFFFFFFFFFFFFFFFF)]) = some (0, 8) := by
  decide

/-- V-J5. -/
theorem test_jal :
    regPc 5 (start 0xFFFFFFFFFFFE0528 [] []) = some (8, 0xFFFFFFFFFFFFFFF8) := by
  decide

/-- V-J4. -/
theorem test_jal_no_link :
    regPc 0 (start 0x20028 [] []) = some (0, 0x18) := by
  decide

/-- V-J7. -/
theorem test_jalr :
    regPc 5 (start 0x10A129 [(1, 0x100)] []) = some (8, 0x104) := by
  decide

/-- V-J8. -/
theorem test_jalr_same :
    regPc 5 (start 0xA529 [(5, 0x200)] []) = some (8, 0x200) := by
  decide

/-- 95_test_vectors 3.7. -/
theorem test_je_taken :
    regPc 1 (start 0x40412A [(1, 5), (2, 5)] []) = some (5, 24) := by
  decide

/-- 95_test_vectors 3.7. -/
theorem test_je_falls_through :
    regPc 1 (start 0x40412A [(1, 5), (2, 7)] []) = some (5, 8) := by
  decide

/-- 95_test_vectors 3.7. -/
theorem test_jne_taken :
    regPc 1 (start 0x40412B [(1, 5), (2, 7)] []) = some (5, 24) := by
  decide

/-- 95_test_vectors 3.7. -/
theorem test_jne_falls_through :
    regPc 1 (start 0x40412B [(1, 5), (2, 5)] []) = some (5, 8) := by
  decide

/-- 95_test_vectors 3.7. -/
theorem test_jgu_taken :
    regPc 1 (start 0x40412C [(1, 0xFFFFFFFFFFFFFFFF), (2, 1)]
      []) = some (0xFFFFFFFFFFFFFFFF, 24) := by
  decide

/-- 95_test_vectors 3.7. -/
theorem test_jgu_falls_through :
    regPc 1 (start 0x40412C [(1, 1), (2, 0xFFFFFFFFFFFFFFFF)] []) = some (1, 8) := by
  decide

/-- 95_test_vectors 3.7. -/
theorem test_jgs_taken :
    regPc 1 (start 0x40412D [(1, 1), (2, 0xFFFFFFFFFFFFFFFF)] []) = some (1, 24) := by
  decide

/-- 95_test_vectors 3.7. -/
theorem test_jgs_falls_through :
    regPc 1 (start 0x40412D [(1, 0xFFFFFFFFFFFFFFFF), (2, 1)]
      []) = some (0xFFFFFFFFFFFFFFFF, 8) := by
  decide

/-- 95_test_vectors 3.7. -/
theorem test_jleu_taken :
    regPc 1 (start 0x40412E [(1, 1), (2, 0xFFFFFFFFFFFFFFFF)] []) = some (1, 24) := by
  decide

/-- 95_test_vectors 3.7. -/
theorem test_jleu_falls_through :
    regPc 1 (start 0x40412E [(1, 0xFFFFFFFFFFFFFFFF), (2, 1)]
      []) = some (0xFFFFFFFFFFFFFFFF, 8) := by
  decide

/-- 95_test_vectors 3.7. -/
theorem test_jles_taken :
    regPc 1 (start 0x40412F [(1, 0x8000000000000000), (2, 0x7FFFFFFFFFFFFFFF)]
      []) = some (0x8000000000000000, 24) := by
  decide

/-- 95_test_vectors 3.7. -/
theorem test_jles_falls_through :
    regPc 1 (start 0x40412F [(1, 7), (2, 5)] []) = some (7, 8) := by
  decide

/-- 95_test_vectors 3.8. -/
theorem test_setgu_true :
    regPc 3 (start 0x86130 [(1, 0xFFFFFFFFFFFFFFFF), (2, 1), (3, 0xAA)] []) = some (1, 8) := by
  decide

/-- 95_test_vectors 3.8. -/
theorem test_setgu_false :
    regPc 3 (start 0x86130 [(1, 1), (2, 0xFFFFFFFFFFFFFFFF), (3, 0xAA)] []) = some (0, 8) := by
  decide

/-- 95_test_vectors 3.8. -/
theorem test_setgs_true :
    regPc 3 (start 0x86132 [(1, 1), (2, 0xFFFFFFFFFFFFFFFF), (3, 0xAA)] []) = some (1, 8) := by
  decide

/-- 95_test_vectors 3.8. -/
theorem test_setgs_false :
    regPc 3 (start 0x86132 [(1, 0xFFFFFFFFFFFFFFFF), (2, 1), (3, 0xAA)] []) = some (0, 8) := by
  decide

/-- 95_test_vectors 3.8. -/
theorem test_setleu_true :
    regPc 3 (start 0x86134 [(1, 1), (2, 0xFFFFFFFFFFFFFFFF), (3, 0xAA)] []) = some (1, 8) := by
  decide

/-- 95_test_vectors 3.8. -/
theorem test_setleu_false :
    regPc 3 (start 0x86134 [(1, 0xFFFFFFFFFFFFFFFF), (2, 1), (3, 0xAA)] []) = some (0, 8) := by
  decide

/-- 95_test_vectors 3.8. -/
theorem test_setles_true :
    regPc 3 (start 0x86136 [(1, 0xFFFFFFFFFFFFFFFF), (2, 1), (3, 0xAA)] []) = some (1, 8) := by
  decide

/-- 95_test_vectors 3.8. -/
theorem test_setles_false :
    regPc 3 (start 0x86136 [(1, 1), (2, 0xFFFFFFFFFFFFFFFF), (3, 0xAA)] []) = some (0, 8) := by
  decide

/-- V-S3. -/
theorem test_setgui :
    regPc 3 (start 0xFFFFFFFFFFFC6131 [(1, 0xFFFFFFFFFFFFFFFF), (3, 0xAA)] []) = some (0, 8) := by
  decide

/-- V-S4. -/
theorem test_setgsi :
    regPc 3 (start 0xFFFFFFFFFFFC6133 [(3, 0xAA)] []) = some (1, 8) := by
  decide

/-- V-S6. -/
theorem test_setleui :
    regPc 3 (start 0xFFFFFFFFFFFC6135 [(1, 0xFFFFFFFFFFFFFFFF), (3, 0xAA)] []) = some (1, 8) := by
  decide

/-- V-S11. -/
theorem test_setlesi :
    regPc 3 (start 0x1C6137 [(1, 0x8000000000000000), (3, 0xAA)] []) = some (1, 8) := by
  decide

/-- V-I2. -/
theorem test_lui :
    regPc 3 (start 0x2468A338 [(3, 0xFFF)] []) = some (0x2468AFFF, 8) := by
  decide

/-- V-I3. -/
theorem test_lui_merges :
    regPc 3 (start 0x2338 [(3, 0xF000000000002ABC)] []) = some (0xF000000000002ABC, 8) := by
  decide

/-- V-I10, at address 8. -/
theorem test_auipc :
    regPc 3 ((((State.reset.writeReg 3 0x55).setPc 8)).withFetchWord 64 0xFFFFFFFFFFFFE339)
      = some (0xFFFFFFFFFFFFE010, 0x10) := by
  decide

/-- V-X1. -/
theorem test_pbreak :
    regPc 3 (start 0x3B [(1, 0x100), (3, 9)] []) = some (9, 8) := by
  decide

/-- V-X4. -/
theorem test_outb :
    regPc 3 (start 0x14613C [(1, 0x100), (3, 9)] []) = some (9, 8) := by
  decide

/-- V-X5. -/
theorem test_outw :
    regPc 3 (start 0x14613D [(1, 0x100), (3, 9)] []) = some (9, 8) := by
  decide

/-- V-X6. -/
theorem test_inb :
    regPc 3 (start 0x14613E [(1, 0x100), (3, 9)] []) = some (9, 8) := by
  decide

/-- V-X7. -/
theorem test_inw :
    regPc 3 (start 0x14613F [(1, 0x100), (3, 9)] []) = some (9, 8) := by
  decide

/-- R52, R265: `break_sig` is 1 during the step of `pbreak` and 0 during another; R356: 0 at reset,
whatever the first instruction is. -/
theorem test_break_sig :
    (start 0x3B [] []).breakSig .stepping = true ∧ (start 0x3C [] []).breakSig .stepping = false
      ∧ State.reset.breakSig .idle = false ∧ (start 0x3B [] []).breakSig .idle = false := by
  decide

/-- V-X2: `halt` sets the flag, advances `pc` and keeps the exit code. -/
theorem test_halt :
    after (fun t => (t.halted, t.fault, t.exitCode, t.pc)) (start 0xFF [(1, 0x2A)] [])
      = some (true, none, 0x2A, 8) := by
  decide

/-- V-X8: an unassigned opcode changes nothing but `pc`. -/
theorem test_unassigned :
    after (fun t => (t.regs.toList.take 4, t.pc, t.halted, t.fault, t.mem.length))
        (start 0xFFFFFFFFFFFFFF1C [(1, 1), (2, 0x800), (3, 9)] [])
      = some ([0, 1, 0x800, 9], 8, false, none, 8)
      ∧ (start 0xFFFFFFFFFFFFFF1C [] []).hitsUnassigned = true := by
  constructor <;> decide

/-! ### Faults -/

/-- V-F5: a fetch of which one byte is out of bounds. -/
theorem test_fetch_fault :
    faultOf 3 (State.reset.setPc 0xFF9) = some (some ⟨.fetch, 0xFF9⟩, true, 0xFF9, 0) := by
  decide

/-- V-F3: the last double-word can be fetched. -/
theorem test_fetch_last :
    regPc 1 ((State.reset.setPc 0xFF8).withFetchWord 64 0x142011) = some (5, 0x1000) := by
  decide

/-- V-M16. -/
theorem test_load_fault :
    faultOf 3 (start 0x6123 [(1, 0xFF9), (3, 9)] []) = some (some ⟨.load, 0xFF9⟩, true, 8, 9) := by
  decide

/-- V-M20: no byte is written. -/
theorem test_store_fault :
    after (fun t => (t.fault, t.load 0xFF8 8)) (start 0x6127 [(1, 0xFF9), (3, 9)] [])
      = some (some ⟨.store, 0xFF9⟩, 0) := by
  decide

/-- V-T6: slot 17 of the frame is out of bounds. -/
theorem test_frame_fault :
    faultOf 2 (start 0x203A [(2, 0x80), (5, 5)] [])
      = some (some ⟨.frame, 0xFFFFFFFFFFFFFFF8⟩, true, 8, 0x80) := by
  decide

/-- V-T7: the vector entry is out of bounds, the frame is not written. -/
theorem test_vector_fault :
    after (fun t => (t.fault, t.pc, t.readReg 2, t.load 0x7D8 8))
        (((start 0x203A [(2, 0x800), (5, 5)] [])).setIntVector 0xFF8)
      = some (some ⟨.vector, 0x1000⟩, 8, 0x800, 0) := by
  decide

/-! ### Traps and introspection -/

/-- V-T1: `pcall 3`. -/
theorem test_pcall :
    after (fun t => (t.pc, t.readReg 2, t.load 0x7F0 8, t.load 0x7C8 8, t.load 0x708 8, t.load 0x700 8))
        ((start 0x603A [(1, 0xB), (2, 0x800), (7, 0x4D), (31, 0x31)] [(0x918, 0x200)]).setIntVector
          0x900)
      = some (0x200, 0x6F8, 0x800, 0x4D, 0x31, 8) := by
  decide +kernel

/-- V-T9: the frame overlays the vector entry and the instruction. -/
theorem test_pcall_overlay :
    after (fun t => (t.pc, t.readReg 2, t.load 0 8, t.load 8 8))
        (start 0x203A [(2, 0x100), (31, 0x700)] [(8, 0x500)])
      = some (0x700, 0xFFFFFFFFFFFFFFF8, 8, 0x700) := by
  decide +kernel

/-- V-T3: `sdivi r3, r1, 0` at address 0x10. -/
theorem test_divide_by_zero :
    after (fun t => (t.pc, t.readReg 2, t.readReg 3, t.load 0x3F8 8, t.load 0x300 8))
        ((((start 0 [(1, 0x64), (2, 0x400), (3, 0x33)] [(0x800, 0x40)]).setIntVector 0x800).setPc
          0x10).withFetchWord 64 0x611B)
      = some (0x40, 0x2F8, 0x33, 0x64, 0x18) := by
  decide +kernel

/-- V-T11: the count and the status. -/
theorem test_introspect_count :
    after (fun t => (t.readReg 31, t.readReg 30, t.readReg 2, t.pc))
        (start 0xFFFFFFFFFFFFE03A [(30, 9), (31, 123)] [])
      = some (16, 2, 0, 8) := by
  decide

/-- V-T11: install. -/
theorem test_introspect_install :
    after (fun t => (t.intVector, t.readReg 30, t.readReg 31))
        (start 0xFFFFFFFFFFFFE03A [(29, 1), (30, 9), (31, 0x900)] [])
      = some (0x900, 9, 0x900) := by
  decide

/-- R106: the moved `add` runs under its new opcode. -/
theorem test_opc_moved_runs :
    regPc 3 { start 0x86142 [(1, 5), (2, 7)] [] with cfg := movedAdd } = some (12, 8) := by
  decide +kernel

/-- V-T12: with `INT_DIV` cleared the divide is an unassigned no-op. -/
theorem test_capability_gate :
    regPc 2 { start 0x106118 [(2, 0x400), (3, 0x3333)] [] with
      cfg := { Config.hardware with caps := 0x0048 } } = some (0x400, 8) := by
  decide

/-! ### Halt, reset and the host -/

/-- V-F2: `halt_req`. -/
theorem test_halt_req :
    after (fun t => (t.halted, t.pc)) { State.reset with haltReq := true, pc := 0x10 }
      = some (true, 0x10) := by
  decide

/-- `State.reset` is the reset of the default launch. -/
theorem test_launch_default : Launch.default.start = some State.reset := by
  rfl

/-- The image of P1 of 95_test_vectors, loaded; R357: a size that is no multiple of 8 is fatal. -/
theorem test_launch_image :
    (({ Launch.default with image := encodeBytes (.addi 1 0 5) }).start.bind (regPc 1)) = some (5, 8)
      ∧ ({ Launch.default with image := [0x11] }).start = none := by
  constructor <;> decide

/-- R27: the host may not write `x[0]`. -/
theorem test_host_zero : State.reset.hostWrite (.reg 0 5) = none := by
  rfl

/-- R44: no byte of the buffer lies at `MEM_SIZE`. -/
theorem test_host_byte :
    State.reset.hostWrite (.byte 4096 1) = none ∧ (State.reset.hostWrite (.byte 4095 1)).isSome := by
  constructor <;> rfl

/-! ## Witnesses

One theorem for each statement of Certificates/Slice0 that has hypotheses: a concrete state and
operands that meet them together, for each clause, at the ends of their ranges. The hypothesis
`opOf w = op` of a decoding clause is met by the words of `witness_opcodes`; the conditions of the
branch and set clauses, true and false, by the one-step tests above (`test_je_taken`,
`test_je_falls_through` and so on). -/

/-- The next step gives a next state with a property. -/
def nextWith (p : State → Bool) (s : State) : Bool :=
  match step s with
  | .next t => p t
  | .fault _ => false
  | .refused _ => false

/-- `nextWith` gives the state a hypothesis `step s = .next t` asks for. -/
theorem nextWith_exists {p : State → Bool} {s : State} (h : nextWith p s = true) :
    ∃ t, step s = .next t ∧ p t = true := by
  unfold nextWith at h
  split at h
  · exact ⟨_, by assumption, h⟩
  · cases h
  · cases h

/-- `State.reset` with a stack pointer and a vector base. -/
def withStack (sp vector : Word) : State := (State.reset.writeReg 2 sp).setIntVector vector

/-- An instruction with an opcode, of a group that is present and of one that is absent, and under a map
that is not that of R108. -/
theorem witness_DecodeEncodeRoundTrip :
    let c := { Config.hardware with caps := 0x0048 }
    c.opc.valid = true
      ∧ (encodeWith c.opc (.addi 1 0 5) = some 0x142011 ∧ (Instr.addi 1 0 5).wellFormed c = true)
      ∧ (encodeWith c.opc (.udiv 3 1 4) = some 0x106118 ∧ (Instr.udiv 3 1 4).wellFormed c = false)
      ∧ movedAdd.opc.valid = true ∧ encodeWith movedAdd.opc (.add 3 1 2) = some 0x86142 := by
  decide +kernel

/-- A configuration whose `OPC` is the map of R108, and a word of each kind for the decoder. -/
theorem witness_CapabilityBitsGateTheirGroups :
    Config.hardware.opc = OpcodeMap.standard
      ∧ decodeWith Config.hardware.opc 0x106118 = .instr (.udiv 3 1 4)
      ∧ decodeWith Config.hardware.opc 0x1C = .unassigned 0x1C := by
  decide

theorem witness_BreakSignalMarksPbreak :
    (start 0x3B [] []).cfg.opc = OpcodeMap.standard ∧ (start 0x3B [] []).Fetches := by
  decide

/-- The opcode clauses, at the first and last opcode of every family and `halt`. -/
theorem witness_opcodes :
    [0x86100, 0x10610F, 0x86110, 0x11B, 0x6120, 0x6127, 0x28, 0x29, 0x2A, 0x2F, 0x30, 0x37, 0x2338,
      0x39, 0x3A, 0x3B, 0x3C, 0x3F, 0xFF].map opOf
      = [0x00, 0x0F, 0x10, 0x1B, 0x20, 0x27, 0x28, 0x29, 0x2A, 0x2F, 0x30, 0x37, 0x38, 0x39, 0x3A,
        0x3B, 0x3C, 0x3F, 0xFF] := by
  decide

theorem witness_UnassignedOpcodesAreTheGaps :
    [0x1B, 0x1C, 0x1F, 0x20, 0x3F, 0x40, 0xFE, 0xFF].map
        (fun w => decide (decodeWord w = .unassigned (opOf w)))
      = [false, true, true, false, false, true, true, false] := by
  decide

theorem witness_IgnoredBitsAreIgnored :
    ((0x86110#64).toNat % 2 ^ 23 = (0xFFFFFFFFFF886110#64).toNat % 2 ^ 23
      ∧ decodeWord 0x86110 = .instr (.add 3 1 2) ∧ (Instr.add 3 1 2).shape = .r)
    ∧ (opOf 0x6106 = 0x06 ∧ (0x6106#64).toNat % 2 ^ 18 = (0xFFFFFFFFFFFC6106#64).toNat % 2 ^ 18)
    ∧ (opOf 0x203A = 0x3A ∧ opOf 0x3F3A = 0x3A ∧ imm51Of 0x203A = imm51Of 0x3F3A)
    ∧ (opOf 0x3B = 0x3B ∧ opOf 0x3B = opOf 0xFFFFFFFFFFFFFF3B)
    ∧ opOf 0xFF = 0xFF ∧ opOf 0xFF = opOf 0xFFFFFFFFFFFFFFFF := by
  decide

/-- A core without `INT_DIV` about to fetch the first and the last divide. -/
theorem witness_DividesWithoutIntDivAreNoOps :
    let s := { start 0x106118 [] [] with cfg := { Config.hardware with caps := 0x0048 } }
    let t := { start 0x611B [] [] with cfg := { Config.hardware with caps := 0x0048 } }
    s.Fetches ∧ s.cfg.unknownOpcode = .nop ∧ s.cfg.caps.getLsbD 2 = false
      ∧ s.cfg.opc = OpcodeMap.standard ∧ t.cfg.opc = OpcodeMap.standard
      ∧ (opOf (s.load s.pc 8)).toNat = 0x18
      ∧ t.Fetches ∧ (opOf (t.load t.pc 8)).toNat = 0x1B := by
  decide

theorem witness_ImmediateSignIsBit45 :
    (sext46 (2 ^ 45)).getLsbD 45 = true ∧ (sext46 (2 ^ 45)).getLsbD 44 = false
      ∧ (sext46 (2 ^ 45)).getLsbD 46 = true ∧ (sext46 (2 ^ 45)).getLsbD 63 = true := by
  decide

/-- Bits 0 and 63 of a shift by 0, 63 and 64, below and from the width up. -/
theorem witness_shift_amounts :
    ((0#64).toNat < 64 ∧ (63#64).toNat < 64 ∧ ¬ (64#64).toNat < 64)
      ∧ ¬ ((-1 : BitVec 46).signExtend 64).toNat < 64
      ∧ 0 + (63#64).toNat < 64 ∧ ¬ 1 + (63#64).toNat < 64 := by
  decide

theorem witness_divisors :
    (State.reset.writeReg 2 1).readReg 2 ≠ 0 ∧ State.reset.readReg 2 = 0
      ∧ (1 : BitVec 46) ≠ 0 ∧ (-1 : BitVec 46) ≠ 0 := by
  decide

/-- The lowest and the highest stack pointer whose frame fits, and the last vector entry. -/
theorem witness_TrapFits :
    (withStack 256 0).TrapFits 0 ∧ (withStack 4088 0xFF8).TrapFits 0
      ∧ (withStack 0x800 0xFF0).TrapFits 1 ∧ (withStack 0x800 8).TrapFits (-1) := by
  refine ⟨?_, ?_, ?_, ?_⟩ <;> decide +kernel

theorem witness_DivideByZeroTakesTrapZero :
    (withStack 256 0).TrapFits 0 ∧ (withStack 256 0).readReg 1 = 0 := by
  decide +kernel

theorem witness_PcallTakesItsTrap :
    (3 : BitVec 51) ≠ BitVec.allOnes 51 ∧ (withStack 256 0).TrapFits ((3 : BitVec 51).signExtend 64)
      ∧ (-2 : BitVec 51) ≠ BitVec.allOnes 51
      ∧ (withStack 256 0x10).TrapFits ((-2 : BitVec 51).signExtend 64) := by
  decide +kernel

/-- The first slot out of the buffer is slot 0, slot 1 and slot 32; then the vector entry is. -/
theorem witness_TrapChecksBeforeWriting :
    (withStack 4089 0).cfg.memSize < ((withStack 4089 0).slotAddr 0).toNat + 8
      ∧ ((withStack 0 0).slotAddr 0).toNat + 8 ≤ 4096
      ∧ (withStack 0 0).cfg.memSize < ((withStack 0 0).slotAddr 1).toNat + 8
      ∧ (∀ j, j < 32 → ((withStack 255 0).slotAddr j).toNat + 8 ≤ 4096)
      ∧ (withStack 255 0).cfg.memSize < ((withStack 255 0).slotAddr 32).toNat + 8
      ∧ (withStack 256 0xFF9).FrameFits
      ∧ (withStack 256 0xFF9).cfg.memSize < ((withStack 256 0xFF9).intVector + 8 * 0).toNat + 8 := by
  decide +kernel

/-- The last address in bounds of each width. -/
theorem witness_access_in_bounds :
    let s := State.reset.writeReg 1 0xFF8
    [(1, 7), (2, 6), (4, 4), (8, 0)].all
        (fun p : Nat × BitVec 46 => decide ((s.effAddr 1 p.2).toNat + p.1 = s.cfg.memSize)) = true
      ∧ (s.readReg 1 + (0 : BitVec 46).signExtend 64).toNat + 8 ≤ s.cfg.memSize := by
  decide

/-- The first address out of bounds of each width, and the last of the address space. -/
theorem witness_OutOfBoundsLoadsAndStoresFault :
    let s := State.reset.writeReg 1 0xFF8
    [(1, 8), (2, 7), (4, 5), (8, 1)].all
        (fun p : Nat × BitVec 46 => decide ((s.effAddr 1 p.2).toNat + p.1 = s.cfg.memSize + 1)) = true
      ∧ s.cfg.memSize < (s.effAddr 0 (-1)).toNat + 1
      ∧ (1, Instr.ldb 3 1 8) ∈ [(1, Instr.ldb 3 1 8), (2, .ldh 3 1 8), (4, .ldw 3 1 8),
        (8, .ldd 3 1 8)] := by
  decide

theorem witness_NarrowReadsSeeStoredBytes :
    (0#64).toNat + 8 ≤ 2 ^ 64 ∧ (0xFFFFFFFFFFFFFFF8#64).toNat + 8 ≤ 2 ^ 64 := by
  decide

/-- `std r3, r0, 8` at address 0. -/
theorem witness_StoredWordIsFetchedNext :
    let s := start 0x206027 [(3, 0xFF)] []
    s.Fetches ∧ s.fetched = .instr (.std 3 0 8) ∧ s.effAddr 0 8 = s.pc + 8
      ∧ (s.pc + 8).toNat + 8 ≤ s.cfg.memSize
      ∧ nextWith (fun t => decide (t.fetchWord = 0xFF)) s = true := by
  decide

/-- The four cases of the introspection call, and both kinds of the last. -/
theorem witness_IntrospectionCases :
    let s := fun (a b : Word) => (State.reset.writeReg 28 a).writeReg 29 b
    ((s 0 0).readReg 28 = 0 ∧ (s 0 0).readReg 29 = 0) ∧ ((s 0 1).readReg 28 = 0 ∧ (s 0 1).readReg 29 = 1)
      ∧ (s 1 5).readReg 28 = 1 ∧ ((s 0 2).readReg 28 = 0 ∧ (s 0 2).readReg 29 = 2)
      ∧ (s 2 0).readReg 28 = 2 := by
  decide

/-- A core without `SWI` that is about to fetch a word, with a stack and `x[4]` = 0. -/
def noSwi (word : Nat) : State :=
  { start word [(2, 0x400)] [] with cfg := { Config.hardware with caps := 0x0044 } }

/-- Each divide with a zero divisor in a core without `SWI`. -/
theorem witness_DivideTrapIgnoresSwi :
    [(0x106118, Instr.udiv 3 1 4), (0x10611A, .sdiv 3 1 4), (0x6119, .udivi 3 1 0),
        (0x611B, .sdivi 3 1 0)].all
      (fun p => decide ((noSwi p.1).Fetches
        ∧ decodeWith (noSwi p.1).cfg.opc ((noSwi p.1).load (noSwi p.1).pc 8) = .instr p.2
        ∧ (noSwi p.1).cfg.caps.getLsbD 2 = true ∧ (noSwi p.1).cfg.caps.getLsbD 3 = false
        ∧ ((noSwi p.1).setPc ((noSwi p.1).pc + 8)).TrapFits 0)) = true := by
  decide +kernel

theorem witness_DividesByZero :
    DividesByZero (noSwi 0x106118) (.udiv 3 1 4) ∧ DividesByZero (noSwi 0x10611A) (.sdiv 3 1 4)
      ∧ DividesByZero (noSwi 0x6119) (.udivi 3 1 0) ∧ DividesByZero (noSwi 0x611B) (.sdivi 3 1 0) := by
  have h4 : ∀ w ∈ [0x106118, 0x10611A], (noSwi w).readReg 4 = 0 := by decide
  exact ⟨h4 _ (by decide), h4 _ (by decide), rfl, rfl⟩

/-- The lowest and the highest `pc` that can fetch, and an instruction of every gated group. -/
theorem witness_StepRunsTheDecodedInstruction :
    let s := start 0x86110 [] []
    let t := (State.reset.setPc 0xFF8).withFetchWord 64 0x3A
    (s.Fetches ∧ decodeWith s.cfg.opc (s.load s.pc 8) = .instr (.add 3 1 2)
      ∧ (Instr.add 3 1 2).wellFormed s.cfg = true)
    ∧ t.Fetches ∧ decodeWith t.cfg.opc (t.load t.pc 8) = .instr (.pcall 0)
      ∧ (Instr.pcall 0).wellFormed t.cfg = true
      ∧ (Instr.udiv 3 1 2).wellFormed t.cfg = true
      ∧ (Instr.setgu 3 1 2).wellFormed t.cfg = true := by
  decide

theorem witness_StepWithoutAFetchedInstruction :
    ({ State.reset with halted := true }).halted = true
      ∧ (({ State.reset with haltReq := true }).halted = false
        ∧ ({ State.reset with haltReq := true }).haltReq = true)
      ∧ ((State.reset.setPc 0xFF9).halted = false ∧ (State.reset.setPc 0xFF9).haltReq = false
        ∧ (State.reset.setPc 0xFF9).cfg.memSize < (State.reset.setPc 0xFF9).pc.toNat + 8) := by
  decide

theorem witness_UnassignedOpcodeIsNoOp :
    let s := start 0x1C [] []
    let t := start 0xFE [] []
    s.Fetches ∧ s.cfg.unknownOpcode = .nop
      ∧ dispatch s.cfg (s.load s.pc 8) = .unassigned 0x1C
      ∧ t.Fetches ∧ dispatch t.cfg (t.load t.pc 8) = .unassigned 0xFE := by
  decide

/-- `addi r0, r0, 5` writes `x[0]` inside the step. -/
theorem witness_RegisterZeroIsClearedEveryStep :
    (start 0x140011 [] []).Fetches
      ∧ nextWith (fun t => decide (t.regs[0] = 0)) (start 0x140011 [] []) = true := by
  decide

/-- A step that does not transfer, an unassigned opcode, and a taken branch of each kind. -/
theorem witness_ProgramCounterMonotonicity :
    let s := start 0x86110 [] []
    let u := start 0x1C [] []
    (s.Fetches ∧ s.fetched = .instr (.add 3 1 2) ∧ ¬ MayTransfer s (.add 3 1 2)
      ∧ nextWith (fun _ => true) s = true)
    ∧ (u.Fetches ∧ u.fetched = .unassigned 0x1C ∧ nextWith (fun _ => true) u = true)
    ∧ ((start 0x40412A [] []).fetched = .instr (.je 1 2 16)
      ∧ MayTransfer (start 0x40412A [] []) (.je 1 2 16))
    ∧ ((start 0x40412B [(1, 1)] []).fetched = .instr (.jne 1 2 16)
      ∧ MayTransfer (start 0x40412B [(1, 1)] []) (.jne 1 2 16))
    ∧ ((start 0x40412C [(1, 1)] []).fetched = .instr (.jgu 1 2 16)
      ∧ MayTransfer (start 0x40412C [(1, 1)] []) (.jgu 1 2 16))
    ∧ ((start 0x40412D [(1, 1)] []).fetched = .instr (.jgs 1 2 16)
      ∧ MayTransfer (start 0x40412D [(1, 1)] []) (.jgs 1 2 16))
    ∧ ((start 0x40412E [] []).fetched = .instr (.jleu 1 2 16)
      ∧ MayTransfer (start 0x40412E [] []) (.jleu 1 2 16))
    ∧ (start 0x40412F [] []).fetched = .instr (.jles 1 2 16)
      ∧ MayTransfer (start 0x40412F [] []) (.jles 1 2 16) := by
  simp only [MayTransfer]
  decide +kernel

theorem witness_EveryInstructionAnswersANextState : State.reset.cfg.unknownOpcode = .nop := by
  decide

/-- A halted core, and the three causes of a halt. -/
theorem witness_HaltFlagHasThreeCauses :
    nextWith (fun t => t.halted) { State.reset with halted := true } = true
      ∧ nextWith (fun t => t.halted) { State.reset with haltReq := true } = true
      ∧ nextWith (fun t => t.halted) (start 0xFF [] []) = true
      ∧ nextWith (fun t => t.halted) (State.reset.setPc 0xFF9) = true := by
  decide

/-- A core with a fault record the host set running again, and a step that records one. -/
theorem witness_FaultRecordIsSticky :
    let s := { State.reset with fault := some ⟨.load, 0x1000⟩ }
    (s.fault ≠ none ∧ nextWith (fun t => decide (t.fault = s.fault)) s = true)
      ∧ nextWith (fun t => decide (t.fault ≠ State.reset.fault)) (State.reset.setPc 0xFF9) = true := by
  decide

theorem witness_VectorBaseHasOneWriter :
    nextWith (fun t => decide (t.intVector ≠ 0)) (start 0xFFFFFFFFFFFFE03A [(29, 1), (31, 0x900)] [])
      = true := by
  decide

theorem witness_ConfigurationIsConstant : nextWith (fun _ => true) State.reset = true := by
  decide

/-- `State.reset` fetches `and r0, r0, r0`, which stores nothing. -/
theorem witness_OnlyStoresAndTrapsWriteMemory :
    nextWith (fun _ => true) State.reset = true
      ∧ (∀ i, State.reset.fetched = .instr i → ¬ MayWriteMemory State.reset i)
      ∧ State.reset.cfg.memSize ≤ 4096 := by
  refine ⟨by decide, fun i h => ?_, by decide⟩
  have e : State.reset.fetched = .instr (.and 0 0 0) := by decide
  rw [e] at h
  cases h
  exact id

theorem witness_StepKeepsTheInvariant :
    (start 0x86110 [(1, 1)] []).Inv ∧ nextWith (fun _ => true) (start 0x86110 [(1, 1)] []) = true := by
  decide

theorem witness_HaltedCoreStaysPut : ({ State.reset with halted := true }).halted = true := by
  decide

/-- A launch with an image of one instruction, an argument count and a `MEM_INIT`; byte 7 is the last
of the image, byte 8 the first above it, byte 4095 the last of the buffer. -/
theorem witness_launches :
    let l := { Launch.default with image := encodeBytes (.addi 1 0 5), argc := 3, memInit := [(4095, 9)] }
    l.start.isSome = true ∧ 7 < l.image.length ∧ l.image.length ≤ 8 ∧ 4095 < l.cfg.memSize
      ∧ (1 : Reg) ≠ 0 ∧ (30 : Reg) ≠ 31 := by
  decide

theorem witness_FatalLaunches :
    Launch.default.start ≠ none ∧ ({ Launch.default with image := [0x11] }).start = none
      ∧ ({ Launch.default with cfg := { Config.hardware with memSize := 7 } }).start = none := by
  decide

theorem witness_HostWritesKeepTheMachineSound :
    State.reset.regs[0] = 0 ∧ Memory.wf State.reset.mem = true
      ∧ Memory.within State.reset.cfg.memSize State.reset.mem = true
      ∧ [HostWrite.reg 31 1, .pc 1, .intVector 1, .halted true, .byte 4095 1, .haltReq true].all
        (fun w => (State.reset.hostWrite w).isSome) = true := by
  decide

theorem witness_CanonicalMemoriesAreEqual :
    Memory.wf [(0, 1), (4095, 2)] = true
      ∧ Memory.wf (Memory.write (Memory.write [] 4095 2) 0 1) = true := by
  decide

end Sys2Proof.Tests
end

/-! PROOFS. Encoding (spec 30_encoding): the value of each field projection as a number. -/

namespace Sys2Proof

/-! ### Field projections as numbers (R103) -/

/-- The value of a field of a word: shift the field down, cut it to its length. -/
theorem extractLsb'_toNat_eq_div_mod (w : Word) (start len : Nat) :
    (w.extractLsb' start len).toNat = w.toNat / 2 ^ start % 2 ^ len := by
  rw [BitVec.extractLsb'_toNat, Nat.shiftRight_eq_div_pow]

/-- A field that ends at bit 63 has nothing above it to cut off. -/
theorem extractLsb'_toNat_of_reaches_top (w : Word) {start len : Nat} (h : start + len = 64) :
    (w.extractLsb' start len).toNat = w.toNat / 2 ^ start := by
  rw [extractLsb'_toNat_eq_div_mod]
  apply Nat.mod_eq_of_lt
  apply Nat.div_lt_of_lt_mul
  rw [← Nat.pow_add, h]
  exact w.isLt

@[simp] theorem Reg.ofBits_val (b : BitVec 5) : (Reg.ofBits b).val = b.toNat := rfl

theorem opOf_toNat (w : Word) : (opOf w).toNat = w.toNat % 2 ^ 8 := by
  rw [opOf, extractLsb'_toNat_eq_div_mod, Nat.pow_zero, Nat.div_one]

theorem r1Of_val (w : Word) : (r1Of w).val = w.toNat / 2 ^ 8 % 2 ^ 5 := by
  rw [r1Of, Reg.ofBits_val, extractLsb'_toNat_eq_div_mod]

theorem rdOf_val (w : Word) : (rdOf w).val = w.toNat / 2 ^ 13 % 2 ^ 5 := by
  rw [rdOf, Reg.ofBits_val, extractLsb'_toNat_eq_div_mod]

theorem r2Of_val (w : Word) : (r2Of w).val = w.toNat / 2 ^ 18 % 2 ^ 5 := by
  rw [r2Of, Reg.ofBits_val, extractLsb'_toNat_eq_div_mod]

theorem imm46Of_toNat (w : Word) : (imm46Of w).toNat = w.toNat / 2 ^ 18 :=
  extractLsb'_toNat_of_reaches_top w rfl

theorem imm51Of_toNat (w : Word) : (imm51Of w).toNat = w.toNat / 2 ^ 13 :=
  extractLsb'_toNat_of_reaches_top w rfl

/-- Settles O1, one projection at a time. -/
theorem projectionsAreBitFields : Obligations.ProjectionsAreBitFields := fun w =>
  ⟨opOf_toNat w, r1Of_val w, rdOf_val w, r2Of_val w, imm46Of_toNat w, imm51Of_toNat w⟩

end Sys2Proof

/-! PROOFS. Fetch and dispatch (spec 40_fetch_decode_dispatch): a step that fetches a word. -/

namespace Sys2Proof.Machine

/-! ### What a step that fetches can do (R130) -/

/-- The model's bounds check of the fetch is the one of R133. -/
theorem State.fetchInBounds_eq_true_iff (s : State) :
    s.fetchInBounds = true ↔ s.pc.toNat + 8 ≤ s.cfg.memSize :=
  decide_eq_true_iff

/-- `step_cases` for a state that fetches: the halted core, the halt request and the failed fetch
are left out, so an instruction runs or an unassigned opcode does nothing. -/
theorem step_cases_of_fetches {s t : State} (hf : s.Fetches) (h : step s = .next t) :
    (∃ i u, s.fetched = .instr i ∧ exec i s.advancePc = .next u ∧ t = u.clearZero)
      ∨ ∃ op, s.fetched = .unassigned op ∧ s.cfg.unknownOpcode = .nop
        ∧ t = s.advancePc.clearZero := by
  obtain ⟨running, notAsked, room⟩ := hf
  have inBounds : s.fetchInBounds = true := s.fetchInBounds_eq_true_iff.2 room
  rcases step_cases h with ⟨halted, -⟩ | ⟨-, asked, -⟩ | ⟨-, -, outOfBounds, -⟩
    | ⟨-, -, -, ran⟩ | ⟨-, -, -, skipped⟩
  · simp [running] at halted
  · simp [notAsked] at asked
  · simp [inBounds] at outOfBounds
  · exact .inl ran
  · exact .inr skipped

/-! ### Register zero (R137) -/

/-- Clearing `x[0]` is the last action of a step that fetches, whatever it fetched. -/
theorem step_clears_zero_last {s t : State} (hf : s.Fetches) (h : step s = .next t) :
    ∃ u : State, t = u.clearZero := by
  rcases step_cases_of_fetches hf h with ⟨-, u, -, -, ht⟩ | ⟨-, -, -, ht⟩
  · exact ⟨u, ht⟩
  · exact ⟨s.advancePc, ht⟩

/-- Settles O44: the next state is one whose `x[0]` was just cleared. -/
theorem registerZeroIsClearedEveryStep : Obligations.RegisterZeroIsClearedEveryStep := by
  intro s t hf h
  obtain ⟨u, rfl⟩ := step_clears_zero_last hf h
  exact ⟨u.clearZero_regs_zero, u.clearZero.readReg_zero⟩

end Sys2Proof.Machine

/-! PROOFS. The bitwise group (spec 41_bitwise): what an opcode of the map R108 decodes to, what the
two-operand forms leave unchanged, the bits of the shift units, and the statements on them. -/

namespace Sys2Proof

/-! ### Decoding by the map of R108 -/

/-- The map of R108 gives the opcode of a mnemonic's row to that mnemonic. -/
theorem OpcodeMap.standard_lookup_row_opcode (m : Mnemonic) :
    OpcodeMap.standard.lookup m.row.opcode = some m := by
  cases m <;> rfl

/-- A word decodes to what the mnemonic of its opcode reads from it. -/
theorem decodeWord_of_opOf_eq {w : Word} {m : Mnemonic} (h : opOf w = m.row.opcode) :
    decodeWord w = .instr (m.read w) :=
  decodeWith_of_lookup (h ▸ OpcodeMap.standard_lookup_row_opcode m)

end Sys2Proof

namespace Sys2Proof.Machine

/-! ### The two-operand forms (40_fetch_decode_dispatch R135) -/

/-- Writing a register changes that register alone; a write to `x[0]` is not seen (10_state R22). -/
theorem State.onlyReg_writeReg (s : State) (rd : Reg) (v : Word) :
    OnlyReg s (s.writeReg rd v) rd v :=
  ⟨⟨fun q => s.readReg_writeReg rd q v, fun _ => rfl, rfl, rfl, rfl, rfl, rfl⟩, rfl⟩

/-- An R-shape instruction that executes as `regForm f` computes every relation `f` satisfies. -/
theorem computesR_of_regForm (m : Mnemonic) {mk : Reg → Reg → Reg → Instr}
    {f : Word → Word → Word} {P : Word → Word → Word → Prop}
    (hread : ∀ w, m.read w = mk (rdOf w) (r1Of w) (r2Of w))
    (hexec : ∀ rd r1 r2 s, exec (mk rd r1 r2) s = regForm f rd r1 r2 s)
    (hf : ∀ a b, P a b (f a b)) : ComputesR m.row.opcode mk P := by
  refine ⟨fun w hw => ?_, fun rd r1 r2 s => ⟨_, _, ?_, hf _ _, s.onlyReg_writeReg rd _⟩⟩
  · rw [decodeWord_of_opOf_eq hw, hread]
  · rw [hexec, regForm_eq]

/-- An S-shape instruction that executes as `immForm f` computes every relation `f` satisfies. -/
theorem computesS_of_immForm (m : Mnemonic) {mk : Reg → Reg → BitVec 46 → Instr}
    {f : Word → Word → Word} {P : Word → Word → Word → Prop}
    (hread : ∀ w, m.read w = mk (rdOf w) (r1Of w) (imm46Of w))
    (hexec : ∀ rd r1 imm s, exec (mk rd r1 imm) s = immForm f rd r1 imm s)
    (hf : ∀ a b, P a b (f a b)) : ComputesS m.row.opcode mk P := by
  refine ⟨fun w hw => ?_, fun rd r1 imm s => ⟨_, _, ?_, hf _ _, s.onlyReg_writeReg rd _⟩⟩
  · rw [decodeWord_of_opOf_eq hw, hread]
  · rw [hexec, immForm_eq, sext46]

/-! ### The logical shift units (R159) -/

/-- Amounts of 64 and more are no special case: such a shift moves every bit out (R159). -/
theorem aluLls_eq_shiftLeft (a b : Word) : aluLls a b = a <<< b.toNat := by
  unfold aluLls
  split
  · next hb => exact (BitVec.shiftLeft_eq_zero hb).symm
  · rw [← Nat.shiftLeft_eq]
    rfl

/-- Likewise the right shift: the quotient by the power of two is below 2^64 already. -/
theorem aluLrs_eq_ushiftRight (a b : Word) : aluLrs a b = a >>> b.toNat := by
  unfold aluLrs
  split
  · next hb => exact (BitVec.ushiftRight_eq_zero hb).symm
  · apply BitVec.eq_of_toNat_eq
    rw [BitVec.toNat_ushiftRight, Nat.shiftRight_eq_div_pow, BitVec.toNat_ofNat]
    exact Nat.mod_eq_of_lt ((Nat.div_le_self _ _).trans_lt a.isLt)

/-- Bit `k` of a left shift (R160). -/
theorem aluLls_getLsbD (a b : Word) (k : Nat) (hk : k < 64) :
    (aluLls a b).getLsbD k = (decide (b.toNat ≤ k) && a.getLsbD (k - b.toNat)) := by
  rw [aluLls_eq_shiftLeft, BitVec.getLsbD_shiftLeft]
  simp only [hk, decide_true, Bool.true_and, ← decide_not, Nat.not_lt]

/-- Bit `k` of a logical right shift (R162). -/
theorem aluLrs_getLsbD (a b : Word) (k : Nat) :
    (aluLrs a b).getLsbD k = a.getLsbD (k + b.toNat) := by
  rw [aluLrs_eq_ushiftRight, BitVec.getLsbD_ushiftRight, Nat.add_comm]

/-! ### The arithmetic right shift unit (R166) -/

/-- Every bit of the sign pattern is the sign. -/
theorem signPattern_getLsbD (a : Word) {k : Nat} (hk : k < 64) :
    (signPattern a).getLsbD k = a.getLsbD 63 := by
  unfold signPattern
  cases a.getLsbD 63 with
  | false => exact BitVec.getLsbD_zero
  | true => exact (BitVec.getLsbD_allOnes).trans (decide_eq_true hk)

/-- Below 64 the floor of the signed quotient is the shift that copies the sign. -/
theorem aluArs_eq_sshiftRight (a : Word) {b : Word} (hb : b.toNat < 64) :
    aluArs a b = a.sshiftRight b.toNat := by
  rw [aluArs, if_neg (Nat.not_le.2 hb), BitVec.sshiftRight_eq, Int.shiftRight_eq_div_pow]

/-- From 64 up the result is the sign pattern. -/
theorem aluArs_eq_signPattern (a : Word) {b : Word} (hb : 64 ≤ b.toNat) :
    aluArs a b = signPattern a :=
  if_pos hb

/-- Bit `k` of an arithmetic right shift: where `k + n` reaches 64, the sign. -/
theorem aluArs_getLsbD (a b : Word) (k : Nat) (hk : k < 64) :
    (aluArs a b).getLsbD k =
      if k + b.toNat < 64 then a.getLsbD (k + b.toNat) else a.getLsbD 63 := by
  rcases Nat.lt_or_ge b.toNat 64 with hb | hb
  · rw [aluArs_eq_sshiftRight a hb, BitVec.getLsbD_sshiftRight, BitVec.msb_eq_getLsbD_last,
      Nat.add_comm]
    simp [hk]
  · have past : ¬ k + b.toNat < 64 := by omega
    rw [aluArs_eq_signPattern a hb, signPattern_getLsbD a hk, if_neg past]

/-! ### The statements -/

/-- Settles O13: the R and S forms share their unit, so one bit equation serves both. -/
theorem logicalShiftResults : Obligations.LogicalShiftResults :=
  ⟨computesR_of_regForm .lls (fun _ => rfl) (fun _ _ _ _ => rfl) aluLls_getLsbD,
    computesS_of_immForm .llsi (fun _ => rfl) (fun _ _ _ _ => rfl) aluLls_getLsbD,
    computesR_of_regForm .lrs (fun _ => rfl) (fun _ _ _ _ => rfl)
      fun a b k _ => aluLrs_getLsbD a b k,
    computesS_of_immForm .lrsi (fun _ => rfl) (fun _ _ _ _ => rfl)
      fun a b k _ => aluLrs_getLsbD a b k⟩

/-- Settles O14, by the bits of the arithmetic right shift unit. -/
theorem arithmeticRightShiftResults : Obligations.ArithmeticRightShiftResults :=
  ⟨computesR_of_regForm .ars (fun _ => rfl) (fun _ _ _ _ => rfl) aluArs_getLsbD,
    computesS_of_immForm .arsi (fun _ => rfl) (fun _ _ _ _ => rfl) aluArs_getLsbD⟩

/-- Settles O11: the units are the library's bitwise operations, bit by bit. -/
theorem andXorOrResults : Obligations.AndXorOrResults :=
  ⟨computesR_of_regForm .and (fun _ => rfl) (fun _ _ _ _ => rfl) fun _ _ _ => BitVec.getLsbD_and,
    computesS_of_immForm .andi (fun _ => rfl) (fun _ _ _ _ => rfl) fun _ _ _ => BitVec.getLsbD_and,
    computesR_of_regForm .xor (fun _ => rfl) (fun _ _ _ _ => rfl) fun _ _ _ => BitVec.getLsbD_xor,
    computesS_of_immForm .xori (fun _ => rfl) (fun _ _ _ _ => rfl) fun _ _ _ => BitVec.getLsbD_xor,
    computesR_of_regForm .or (fun _ => rfl) (fun _ _ _ _ => rfl) fun _ _ _ => BitVec.getLsbD_or,
    computesS_of_immForm .ori (fun _ => rfl) (fun _ _ _ _ => rfl) fun _ _ _ => BitVec.getLsbD_or⟩

end Sys2Proof.Machine

/-! PROOFS. The arithmetic group (spec 42_arithmetic): the units of the sum and the difference as
numbers, and the statement on them. -/

namespace Sys2Proof.Machine

/-! ### The sum and difference units (R181, R183) -/

/-- The carry out of bit 63 is dropped. -/
theorem aluAdd_toNat (a b : Word) : (aluAdd a b).toNat = (a.toNat + b.toNat) % 2 ^ 64 :=
  BitVec.toNat_ofNat _ _

/-- A negative difference wraps to its representative in `0 .. 2^64 - 1`. -/
theorem aluSub_toNat (a b : Word) :
    ((aluSub a b).toNat : Int) = ((a.toNat : Int) - b.toNat) % 2 ^ 64 := by
  have nonneg : 0 ≤ ((a.toNat : Int) - b.toNat) % 2 ^ 64 := Int.emod_nonneg _ (by decide)
  rw [aluSub, BitVec.toNat_ofInt]
  exact Int.toNat_of_nonneg nonneg

/-! ### The statement -/

/-- Settles O16: the R and S forms share their unit, so one equation serves both. -/
theorem addAndSubResults : Obligations.AddAndSubResults :=
  ⟨computesR_of_regForm .add (fun _ => rfl) (fun _ _ _ _ => rfl) aluAdd_toNat,
    computesS_of_immForm .addi (fun _ => rfl) (fun _ _ _ _ => rfl) aluAdd_toNat,
    computesR_of_regForm .sub (fun _ => rfl) (fun _ _ _ _ => rfl) aluSub_toNat,
    computesS_of_immForm .subi (fun _ => rfl) (fun _ _ _ _ => rfl) aluSub_toNat⟩

end Sys2Proof.Machine

/-! PROOFS. The control transfers (spec 43_memory_control section 4): what a jump leaves unchanged
beside its link, and the statement on `jal`. -/

namespace Sys2Proof.Machine

/-! ### The link and the jump (R220) -/

/-- A jump after a register write keeps what the write says: `WritesReg` leaves `pc` free. -/
theorem WritesReg.setPc {s t : State} {rd : Reg} {v : Word} (h : WritesReg s t rd v)
    (target : Word) : WritesReg s (t.setPc target) rd v := by
  obtain ⟨hregs, hmem, hcontrol⟩ := h
  exact ⟨fun r => (t.readReg_setPc target r).trans (hregs r), hmem, hcontrol⟩

/-- `jal` links `pc_next`, which `pc` already holds, and jumps relative to it. -/
theorem exec_jal (r1 : Reg) (off : BitVec 51) (s : State) :
    exec (.jal r1 off) s = .next ((s.writeReg r1 s.pc).setPc (s.pc + sext51 off)) := rfl

/-! ### The statement -/

/-- Settles O27: the frame is that of the link's register write, which the jump keeps; the target
is read from `s`, so that the link cannot alter it. -/
theorem jalLinksAndJumps : Obligations.JalLinksAndJumps := by
  refine ⟨fun w hw => decodeWord_of_opOf_eq (m := .jal) hw,
    fun r off s => ⟨_, exec_jal r off s, ?frame, ?target⟩⟩
  case frame =>
    obtain ⟨link, _⟩ := s.onlyReg_writeReg r s.pc
    exact link.setPc _
  case target => exact State.setPc_pc _ _

end Sys2Proof.Machine

/-! PROOFS. Reset (spec 70_reset_and_hazards section 1): the state a launch starts in, and the
statement on its interrupt vector, halted flag and fault record. -/

namespace Sys2Proof.Machine

/-! ### The state of a launch (R350, R357) -/

/-- A launch starts exactly when it is not load-time fatal, and then in one state: only registers,
memory and configuration come from its parameters. -/
theorem Launch.start_eq_some_iff (l : Launch) (s : State) :
    l.start = some s ↔ l.ok = true ∧
      s = { State.reset with
            regs := (l.regInit.set 0 0).set 31 l.argc
            mem := l.memory
            cfg := l.cfg } := by
  rw [Launch.start, Option.ite_none_right_eq_some, Option.some_inj, eq_comm (b := s)]
  rfl

/-! ### The statement -/

/-- Settles O56: a launch keeps the three fields of `State.reset`, so both parts are about that
state. -/
theorem resetClearsVectorHaltAndFault : Obligations.ResetClearsVectorHaltAndFault := by
  have cleared : State.reset.intVector = 0 ∧ State.reset.halted = false
      ∧ State.reset.fault = none := ⟨rfl, rfl, rfl⟩
  refine ⟨cleared, fun l s h => ?launch⟩
  case launch =>
    obtain ⟨-, rfl⟩ := (l.start_eq_some_iff s).1 h
    exact cleared

end Sys2Proof.Machine

/-! PROOFS. Encoding (spec 30_encoding): the round trips of the codec and of the opcode map, the
gates of the dispatch table, and the bits a decoded word ignores. -/

namespace Sys2Proof

/-! ### Decode and encode under an opcode map (R104, R106) -/

/-- An instruction's word holds the opcode the map gives its mnemonic. -/
theorem encodeWith_eq_some_iff {opc : OpcodeMap} {i : Instr} {w : Word} :
    encodeWith opc i = some w
      ↔ ∃ op, opc.opcodeOf i.mnemonic = some op ∧ encodeFields op i = w :=
  Option.map_eq_some_iff

/-- Under a map that gives no opcode twice, the word of an instruction decodes to it. -/
theorem decodeWith_of_encodeWith {opc : OpcodeMap} {i : Instr} {w : Word}
    (hv : opc.valid = true) (h : encodeWith opc i = some w) : decodeWith opc w = .instr i := by
  obtain ⟨op, hop, rfl⟩ := encodeWith_eq_some_iff.1 h
  have hlookup : opc.lookup (opOf (encodeFields op i)) = some i.mnemonic := by
    rw [opOf_encodeFields]
    exact OpcodeMap.lookup_opcodeOf hv hop
  rw [decodeWith_of_lookup hlookup, read_encodeFields]

/-- The dispatch table holds what the decoder reads, where the instruction's group is present. -/
theorem dispatch_of_decodeWith {c : Config} {w : Word} {i : Instr}
    (h : decodeWith c.opc w = .instr i) :
    dispatch c w = if i.mnemonic.presentIn c.caps then .instr i else .unassigned (opOf w) := by
  rw [dispatch_eq, h]

/-- A word that decodes to no instruction is reported under its own opcode. -/
theorem dispatch_of_decodeWith_unassigned {c : Config} {w : Word} {op : Byte}
    (h : decodeWith c.opc w = .unassigned op) : dispatch c w = .unassigned (opOf w) := by
  cases hl : c.opc.lookup (opOf w) with
  | some m => rw [decodeWith_of_lookup hl] at h; cases h
  | none => rw [dispatch_eq, decodeWith_of_lookup_none hl]

/-- No two mnemonics share an opcode in R108: looking the opcode up gives the mnemonic back. -/
theorem Mnemonic.row_opcode_injective :
    Function.Injective fun m : Mnemonic => m.row.opcode := by
  intro m m' h
  have hm := OpcodeMap.standard_lookup_row_opcode m
  rw [show m.row.opcode = m'.row.opcode from h, OpcodeMap.standard_lookup_row_opcode m'] at hm
  exact (Option.some_inj.1 hm).symm

theorem Mnemonic.all_nodup : Mnemonic.all.Nodup := by decide

/-- The map of R108 is a map. -/
theorem OpcodeMap.standard_valid : OpcodeMap.standard.valid = true := by
  have hops : (OpcodeMap.standard.map Prod.fst).Nodup := by
    rw [OpcodeMap.standard, List.map_map]
    exact Mnemonic.all_nodup.map Mnemonic.row_opcode_injective
  have hmnemonics : (OpcodeMap.standard.map Prod.snd).Nodup := by
    rw [OpcodeMap.standard, List.map_map]
    exact Mnemonic.all_nodup.map Function.injective_id
  simp [OpcodeMap.valid, hops, hmnemonics]

/-- The map of R108 gives every instruction the word `encode` does. -/
theorem encodeWith_standard (i : Instr) : encodeWith OpcodeMap.standard i = some (encode i) :=
  encodeWith_eq_some_iff.2 ⟨i.opcode, OpcodeMap.standard_opcodeOf i.mnemonic, rfl⟩

/-- Settles O4: an opcode is looked up to the mnemonic it was taken from, which reads its own fields
back; the capability gate is then the presence half of well-formedness. -/
theorem decodeEncodeRoundTrip : Obligations.DecodeEncodeRoundTrip := by
  refine ⟨fun c i w hv h => ?decodes, OpcodeMap.standard_valid, fun i => ?standard⟩
  case decodes =>
    have hdecode := decodeWith_of_encodeWith hv h
    obtain ⟨op, hop, -⟩ := encodeWith_eq_some_iff.1 h
    refine ⟨hdecode, ?_⟩
    rw [dispatch_of_decodeWith hdecode, Instr.wellFormed, hop, Option.isSome_some, Bool.true_and]
  case standard =>
    exact ⟨encodeWith_standard i,
      decodeWith_of_encodeWith OpcodeMap.standard_valid (encodeWith_standard i)⟩

/-! ### Words and their fields (R102, R104) -/

/-- The bits of an R-shape word above its fields are zero. -/
theorem encodeR_toNat_lt (op : Byte) (r1 r2 rd : Reg) :
    (encodeR op r1 r2 rd).toNat < 2 ^ 23 := by
  refine Nat.lt_pow_two_of_testBit _ fun k hk => ?_
  rw [BitVec.testBit_toNat, encodeR_getLsbD, if_neg (by omega), if_neg (by omega),
    if_neg (by omega)]
  exact Reg.bits_getLsbD_ge r2 (by omega)

/-- The S-shape fields cover the word. -/
theorem word_eq_of_sFields {w w' : Word} (hop : opOf w = opOf w') (hr1 : r1Of w = r1Of w')
    (hrd : rdOf w = rdOf w') (himm : imm46Of w = imm46Of w') : w = w' := by
  have e0 := congrArg BitVec.toNat hop
  have e1 := congrArg Fin.val hr1
  have e2 := congrArg Fin.val hrd
  have e3 := congrArg BitVec.toNat himm
  rw [opOf_toNat, opOf_toNat] at e0
  rw [r1Of_val, r1Of_val] at e1
  rw [rdOf_val, rdOf_val] at e2
  rw [imm46Of_toNat, imm46Of_toNat] at e3
  exact BitVec.eq_of_toNat_eq (by omega)

/-- The L-shape fields cover the word. -/
theorem word_eq_of_lFields {w w' : Word} (hop : opOf w = opOf w') (hr1 : r1Of w = r1Of w')
    (himm : imm51Of w = imm51Of w') : w = w' := by
  have e0 := congrArg BitVec.toNat hop
  have e1 := congrArg Fin.val hr1
  have e2 := congrArg BitVec.toNat himm
  rw [opOf_toNat, opOf_toNat] at e0
  rw [r1Of_val, r1Of_val] at e1
  rw [imm51Of_toNat, imm51Of_toNat] at e2
  exact BitVec.eq_of_toNat_eq (by omega)

/-- The R-shape fields cover the 23 low bits. -/
theorem word_eq_of_rFields {w w' : Word} (hop : opOf w = opOf w') (hr1 : r1Of w = r1Of w')
    (hr2 : r2Of w = r2Of w') (hrd : rdOf w = rdOf w') (hw : w.toNat < 2 ^ 23)
    (hw' : w'.toNat < 2 ^ 23) : w = w' := by
  have e0 := congrArg BitVec.toNat hop
  have e1 := congrArg Fin.val hr1
  have e2 := congrArg Fin.val hr2
  have e3 := congrArg Fin.val hrd
  rw [opOf_toNat, opOf_toNat] at e0
  rw [r1Of_val, r1Of_val] at e1
  rw [r2Of_val, r2Of_val] at e2
  rw [rdOf_val, rdOf_val] at e3
  exact BitVec.eq_of_toNat_eq (by omega)

theorem encodeS_fields (w : Word) : encodeS (opOf w) (r1Of w) (rdOf w) (imm46Of w) = w :=
  word_eq_of_sFields (opOf_encodeS _ _ _ _) (r1Of_encodeS _ _ _ _) (rdOf_encodeS _ _ _ _)
    (imm46Of_encodeS _ _ _ _)

theorem encodeL_fields (w : Word) : encodeL (opOf w) (r1Of w) (imm51Of w) = w :=
  word_eq_of_lFields (opOf_encodeL _ _ _) (r1Of_encodeL _ _ _) (imm51Of_encodeL _ _ _)

/-- An R-shape word is rebuilt from its fields exactly when its reserved bits are zero. -/
theorem encodeR_fields_iff (w : Word) :
    encodeR (opOf w) (r1Of w) (r2Of w) (rdOf w) = w ↔ w.toNat / 2 ^ 23 = 0 := by
  have hlt := encodeR_toNat_lt (opOf w) (r1Of w) (r2Of w) (rdOf w)
  constructor
  · intro h
    rw [h] at hlt
    exact Nat.div_eq_of_lt hlt
  · intro h
    exact word_eq_of_rFields (opOf_encodeR _ _ _ _) (r1Of_encodeR _ _ _ _) (r2Of_encodeR _ _ _ _)
      (rdOf_encodeR _ _ _ _) hlt (by omega)

/-- Settles O2: the projections undo the encoder, and words with equal fields are equal. -/
theorem codecRoundTrips : Obligations.CodecRoundTrips :=
  ⟨fun _ _ _ _ => ⟨opOf_encodeR _ _ _ _, r1Of_encodeR _ _ _ _, r2Of_encodeR _ _ _ _,
      rdOf_encodeR _ _ _ _⟩,
    fun _ _ _ _ => ⟨opOf_encodeS _ _ _ _, r1Of_encodeS _ _ _ _, rdOf_encodeS _ _ _ _,
      imm46Of_encodeS _ _ _ _⟩,
    fun _ _ _ => ⟨opOf_encodeL _ _ _, r1Of_encodeL _ _ _, imm51Of_encodeL _ _ _⟩,
    fun w => ⟨encodeS_fields w, encodeL_fields w, encodeR_fields_iff w⟩⟩

/-- A signed number cut to `n` bits is its residue. -/
theorem ofInt_toNat_eq_emod (n : Nat) (z : Int) : ((BitVec.ofInt n z).toNat : Int) = z % 2 ^ n := by
  rw [BitVec.toNat_ofInt]
  exact Int.toNat_of_nonneg (Int.emod_nonneg _ (by positivity))

/-- `encode_r` sees its arguments modulo the size of their fields. -/
theorem encodeRNat_mod (op r1 r2 rd : Nat) :
    encodeRNat op r1 r2 rd = encodeRNat (op % 2 ^ 8) (r1 % 2 ^ 5) (r2 % 2 ^ 5) (rd % 2 ^ 5) := by
  have cut : ∀ n x : Nat, BitVec.ofNat n (x % 2 ^ n) = BitVec.ofNat n x := fun n x =>
    BitVec.eq_of_toNat_eq (by simp)
  simp only [encodeRNat, cut]

/-- Settles O3: each argument is cut to its field's width before the encoder places it. -/
theorem codecTruncatesArguments : Obligations.CodecTruncatesArguments := by
  refine ⟨fun op r1 r2 rd => ⟨encodeRNat_mod op r1 r2 rd, ?_⟩, fun op r1 rd imm => ?_,
    fun op r1 imm => ?_⟩
  · rw [encodeRNat, opOf_encodeR, r1Of_encodeR, r2Of_encodeR, rdOf_encodeR]
    simp only [Reg.ofBits_val, BitVec.toNat_ofNat, and_self]
  · rw [encodeSNat, opOf_encodeS, r1Of_encodeS, rdOf_encodeS, imm46Of_encodeS]
    simp only [Reg.ofBits_val, BitVec.toNat_ofNat, ofInt_toNat_eq_emod, and_self]
  · rw [encodeLNat, opOf_encodeL, r1Of_encodeL, imm51Of_encodeL]
    simp only [Reg.ofBits_val, BitVec.toNat_ofNat, ofInt_toNat_eq_emod, and_self]

/-! ### The gaps and the gates of the map R108 (R112, 40_fetch_decode_dispatch R134) -/

/-- Settles O5: the two outcomes of the decoder have disjoint ranges of opcodes. -/
theorem unassignedOpcodesAreTheGaps : Obligations.UnassignedOpcodesAreTheGaps := by
  intro w
  rcases decodeWord_cases w with ⟨hassigned, i, hi, hop⟩ | ⟨hgap, hun⟩
  · refine ⟨⟨fun h => ?_, fun h => ?_⟩, fun _ => ⟨i, hi, hop⟩⟩
    · rw [hi] at h; cases h
    · omega
  · exact ⟨⟨fun _ => hgap, fun _ => hun⟩, fun h => absurd hun h⟩

/-- The mnemonics a capability set leaves out, by their opcodes in R108: the divides without bit 2,
`pcall` without bit 3, the sets without bit 6 (10_state R36). -/
theorem Mnemonic.presentIn_eq_false_iff (caps : Caps) (m : Mnemonic) :
    m.presentIn caps = false ↔
      (0x18 ≤ m.row.opcode.toNat ∧ m.row.opcode.toNat ≤ 0x1B ∧ caps.getLsbD 2 = false)
        ∨ (m.row.opcode = 0x3A ∧ caps.getLsbD 3 = false)
        ∨ (0x30 ≤ m.row.opcode.toNat ∧ m.row.opcode.toNat ≤ 0x37 ∧ caps.getLsbD 6 = false) := by
  cases m <;> simp [Mnemonic.presentIn, Mnemonic.row, Caps.has, Cap.bit]

/-- The dispatch table on the map of R108: the decoder's answer but for the groups left out. -/
theorem dispatch_standard {c : Config} (hc : c.opc = OpcodeMap.standard) (w : Word) :
    dispatch c w =
      if (0x18 ≤ (opOf w).toNat ∧ (opOf w).toNat ≤ 0x1B ∧ c.caps.getLsbD 2 = false)
        ∨ (opOf w = 0x3A ∧ c.caps.getLsbD 3 = false)
        ∨ (0x30 ≤ (opOf w).toNat ∧ (opOf w).toNat ≤ 0x37 ∧ c.caps.getLsbD 6 = false)
      then .unassigned (opOf w) else decodeWord w := by
  obtain ⟨m, hl, hop⟩ | ⟨hl, -⟩ := OpcodeMap.standard_lookup_cases (opOf w)
  · have hdecode : decodeWith c.opc w = .instr (m.read w) := hc ▸ decodeWith_of_lookup hl
    have hgate := m.presentIn_eq_false_iff c.caps
    rw [hop] at hgate
    rw [dispatch_of_decodeWith hdecode, Mnemonic.read_mnemonic, decodeWord, ← hc, hdecode]
    by_cases hp : m.presentIn c.caps = true
    · rw [if_pos hp, if_neg (hgate.not.1 (by simp [hp]))]
    · rw [if_neg hp, if_pos (hgate.1 (by simpa using hp))]
  · have hdecode : decodeWord w = .unassigned (opOf w) := decodeWith_of_lookup_none hl
    rw [dispatch_of_decodeWith_unassigned (c := c) (by rw [hc]; exact hdecode), hdecode, ite_self]

/-- Settles O9: the gate goes with the mnemonic, whose opcode the map of R108 fixes. -/
theorem capabilityBitsGateTheirGroups : Obligations.CapabilityBitsGateTheirGroups :=
  ⟨fun _ w hc => dispatch_standard hc w,
    fun _ _ => ⟨fun _ h => dispatch_of_decodeWith h,
      fun _ h => dispatch_of_decodeWith_unassigned h⟩⟩

/-! ### Ignored bits (R113) -/

/-- Words that agree below bit 18 have the same opcode, `r1` and `rd`. -/
theorem fields_eq_of_mod_18 {w w' : Word} (h : w.toNat % 2 ^ 18 = w'.toNat % 2 ^ 18) :
    opOf w = opOf w' ∧ r1Of w = r1Of w' ∧ rdOf w = rdOf w' := by
  refine ⟨BitVec.eq_of_toNat_eq ?_, Fin.ext ?_, Fin.ext ?_⟩
  · rw [opOf_toNat, opOf_toNat]; omega
  · rw [r1Of_val, r1Of_val]; omega
  · rw [rdOf_val, rdOf_val]; omega

/-- Words that agree below bit 23 have the same `r2` too. -/
theorem r2Of_eq_of_mod_23 {w w' : Word} (h : w.toNat % 2 ^ 23 = w'.toNat % 2 ^ 23) :
    r2Of w = r2Of w' := by
  apply Fin.ext
  rw [r2Of_val, r2Of_val]
  omega

/-- A word that decodes to an instruction is read under the mnemonic of its opcode. -/
theorem decodeWith_eq_instr {opc : OpcodeMap} {w : Word} {i : Instr}
    (h : decodeWith opc w = .instr i) : ∃ m, opc.lookup (opOf w) = some m ∧ m.read w = i := by
  cases hl : opc.lookup (opOf w) with
  | some m =>
    rw [decodeWith_of_lookup hl] at h
    exact ⟨m, rfl, Decoded.instr.inj h⟩
  | none => rw [decodeWith_of_lookup_none hl] at h; cases h

/-- An R-shape mnemonic reads the three register fields and nothing else. -/
theorem Mnemonic.read_congr_of_shape_r {m : Mnemonic} (hm : m.row.shape = .r) {w w' : Word}
    (hr1 : r1Of w = r1Of w') (hr2 : r2Of w = r2Of w') (hrd : rdOf w = rdOf w') :
    m.read w = m.read w' := by
  cases m <;> simp [Mnemonic.row] at hm <;> simp only [Mnemonic.read, hr1, hr2, hrd]

/-- Settles O6: the fields a mnemonic reads agree, so what it reads does. -/
theorem ignoredBitsAreIgnored : Obligations.IgnoredBitsAreIgnored := by
  refine ⟨fun w w' i h hw hi => ?rShape, fun w w' hop h => ?notCnt, fun w w' hop hop' h => ?pcall,
    fun w w' hop h => ?opcodeAlone⟩
  case rShape =>
    obtain ⟨m, hl, rfl⟩ := decodeWith_eq_instr hw
    obtain ⟨hopEq, hr1, hrd⟩ := fields_eq_of_mod_18 (w := w) (w' := w') (by omega)
    rw [hopEq] at hl
    rw [decodeWord, decodeWith_of_lookup hl]
    rw [Instr.shape, Mnemonic.read_mnemonic] at hi
    rw [Mnemonic.read_congr_of_shape_r hi hr1 (r2Of_eq_of_mod_23 h) hrd]
  case notCnt =>
    obtain ⟨hopEq, hr1, hrd⟩ := fields_eq_of_mod_18 h
    rcases hop with hop | hop
    · rw [decodeWord_of_opOf_eq (m := .not) hop, decodeWord_of_opOf_eq (m := .not) (hopEq ▸ hop)]
      simp only [Mnemonic.read, hr1, hrd]
    · rw [decodeWord_of_opOf_eq (m := .cnt) hop, decodeWord_of_opOf_eq (m := .cnt) (hopEq ▸ hop)]
      simp only [Mnemonic.read, hr1, hrd]
  case pcall =>
    rw [decodeWord_of_opOf_eq (m := .pcall) hop, decodeWord_of_opOf_eq (m := .pcall) hop']
    simp only [Mnemonic.read, h]
  case opcodeAlone =>
    rcases hop with hop | hop
    · rw [decodeWord_of_opOf_eq (m := .pbreak) hop, decodeWord_of_opOf_eq (m := .pbreak) (h ▸ hop)]
      rfl
    · rw [decodeWord_of_opOf_eq (m := .halt) hop, decodeWord_of_opOf_eq (m := .halt) (h ▸ hop)]
      rfl

end Sys2Proof

namespace Sys2Proof.Machine

/-! ### The sign of an immediate (R96) -/

/-- Settles O10: the sign extension of a 46-bit field, whose sign is its bit 45. -/
theorem immediateSignIsBit45 : Obligations.ImmediateSignIsBit45 := by
  intro imm
  have hvalue : (sext46 imm).toInt = imm.toInt := BitVec.toInt_signExtend_of_le (by omega)
  refine ⟨fun k hk => ?_, fun k hk hk' => ?_, ?_, ?_⟩
  · rw [sext46, BitVec.getLsbD_signExtend, if_pos hk, decide_eq_true (by omega), Bool.true_and]
  · rw [sext46, BitVec.getLsbD_signExtend, if_neg (by omega), decide_eq_true hk', Bool.true_and]
    exact BitVec.msb_eq_getLsbD_last imm
  · rw [hvalue]; exact BitVec.le_toInt imm
  · rw [hvalue]; exact Int.le_sub_one_of_lt BitVec.toInt_lt

/-! ### Example words -/

/-- Settles O7: each word is read under the mnemonic of its opcode. -/
theorem exampleWordsDecode : Obligations.ExampleWordsDecode := by
  refine ⟨?_, ?_, ?_, ?_, ?_⟩
  · rw [decodeWord_of_opOf_eq (m := .add) (by decide)]; decide
  · rw [decodeWord_of_opOf_eq (m := .ldd) (by decide)]; decide
  · rw [decodeWord_of_opOf_eq (m := .je) (by decide)]; decide
  · rw [decodeWord_of_opOf_eq (m := .pcall) (by decide)]; decide
  · rw [decodeWord_of_opOf_eq (m := .lui) (by decide)]; decide

end Sys2Proof.Machine

/-! PROOFS. The whole-machine rules (spec 10_state, 60_exceptions section 5): what every
instruction keeps, derived from the effects of `exec_effect`, and what every step keeps. -/

namespace Sys2Proof.Machine

/-! ### What a trap and the introspection call keep -/

@[simp] theorem State.trap_cfg (s : State) (n : Word) : (s.trap n).cfg = s.cfg := by
  rcases s.trap_cases n with ⟨a, -, e⟩ | ⟨-, -, e⟩ | ⟨-, -, e⟩ <;> simp [e]

@[simp] theorem State.trap_haltReq (s : State) (n : Word) : (s.trap n).haltReq = s.haltReq := by
  rcases s.trap_cases n with ⟨a, -, e⟩ | ⟨-, -, e⟩ | ⟨-, -, e⟩ <;> simp [e]

@[simp] theorem State.trap_intVector (s : State) (n : Word) :
    (s.trap n).intVector = s.intVector := by
  rcases s.trap_cases n with ⟨a, -, e⟩ | ⟨-, -, e⟩ | ⟨-, -, e⟩ <;> simp [e]

/-- A trap faults, or keeps the halt flag and the fault record. -/
theorem State.trap_raises_or_keeps (s : State) (n : Word) :
    (∃ k a, s.trap n = s.raiseBounds k a)
      ∨ (s.trap n).fault = s.fault ∧ (s.trap n).halted = s.halted := by
  rcases s.trap_cases n with ⟨a, -, e⟩ | ⟨-, -, e⟩ | ⟨-, -, e⟩
  · exact .inl ⟨_, _, e⟩
  · exact .inl ⟨_, _, e⟩
  · exact .inr (by simp [e])

/-- A trap leaves the memory as it is, or pushes a frame that lies in the buffer. -/
theorem State.trap_mem_cases (s : State) (n : Word) :
    (s.trap n).mem = s.mem
      ∨ (∀ slot ∈ s.trapFrame, slot.1.toNat + 8 ≤ s.cfg.memSize)
        ∧ (s.trap n).mem = (s.pushFrame s.trapFrame).mem := by
  rcases s.trap_cases n with ⟨a, -, e⟩ | ⟨-, -, e⟩ | ⟨hf, -, e⟩
  · exact .inl (by simp [e])
  · exact .inl (by simp [e])
  · exact .inr ⟨hf, by simp [e]⟩

@[simp] theorem State.introspect_pc (s : State) : s.introspect.pc = s.pc := by
  rcases s.introspect_cases with ⟨-, -, e⟩ | ⟨-, -, e⟩ | ⟨-, e⟩ | ⟨-, -, e⟩ <;> simp [e]

@[simp] theorem State.introspect_mem (s : State) : s.introspect.mem = s.mem := by
  rcases s.introspect_cases with ⟨-, -, e⟩ | ⟨-, -, e⟩ | ⟨-, e⟩ | ⟨-, -, e⟩ <;> simp [e]

@[simp] theorem State.introspect_halted (s : State) : s.introspect.halted = s.halted := by
  rcases s.introspect_cases with ⟨-, -, e⟩ | ⟨-, -, e⟩ | ⟨-, e⟩ | ⟨-, -, e⟩ <;> simp [e]

@[simp] theorem State.introspect_fault (s : State) : s.introspect.fault = s.fault := by
  rcases s.introspect_cases with ⟨-, -, e⟩ | ⟨-, -, e⟩ | ⟨-, e⟩ | ⟨-, -, e⟩ <;> simp [e]

@[simp] theorem State.introspect_cfg (s : State) : s.introspect.cfg = s.cfg := by
  rcases s.introspect_cases with ⟨-, -, e⟩ | ⟨-, -, e⟩ | ⟨-, e⟩ | ⟨-, -, e⟩ <;> simp [e]

@[simp] theorem State.introspect_haltReq (s : State) : s.introspect.haltReq = s.haltReq := by
  rcases s.introspect_cases with ⟨-, -, e⟩ | ⟨-, -, e⟩ | ⟨-, e⟩ | ⟨-, -, e⟩ <;> simp [e]

/-- The introspection call writes the vector base in its install case alone (60_exceptions R310). -/
theorem State.introspect_intVector (s : State) :
    s.introspect.intVector = s.intVector
      ∨ s.readReg 28 = 0 ∧ s.readReg 29 = 1 ∧ s.introspect.intVector = s.readReg 31 := by
  rcases s.introspect_cases with ⟨-, -, e⟩ | ⟨h28, h29, e⟩ | ⟨-, e⟩ | ⟨-, -, e⟩
  · exact .inl (by simp [e])
  · exact .inr ⟨h28, h29, by simp [e]⟩
  · exact .inl (by simp [e])
  · exact .inl (by rw [e])

/-! ### What every instruction keeps -/

theorem Effect.cfg_eq {i : Instr} {s t : State} (h : Effect i s t) : t.cfg = s.cfg := by
  cases h <;> simp

theorem Effect.haltReq_eq {i : Instr} {s t : State} (h : Effect i s t) :
    t.haltReq = s.haltReq := by
  cases h <;> simp

/-- Only an instruction that may transfer control moves `pc`, and a `BoundsFault` leaves it. -/
theorem Effect.pc_eq {i : Instr} {s t : State} (h : Effect i s t) (hi : ¬ MayTransfer s i) :
    t.pc = s.pc := by
  cases h
  case link ht => exact absurd ht hi
  case branch ht => exact absurd ht hi
  case trap ht _ => exact absurd ht hi
  all_goals simp

/-- An instruction faults, or keeps the fault record, and the halt flag too unless it is `halt`. -/
theorem Effect.raises_or_keeps {i : Instr} {s t : State} (h : Effect i s t) :
    (∃ k a, t = s.raiseBounds k a)
      ∨ t.fault = s.fault ∧ (t.halted = s.halted ∨ i = .halt ∧ t.halted = true) := by
  cases h
  case fault k a => exact .inl ⟨k, a, rfl⟩
  case halt hi => exact .inr ⟨rfl, .inr ⟨hi, rfl⟩⟩
  case introspect => exact .inr ⟨s.introspect_fault, .inl s.introspect_halted⟩
  case trap n _ _ =>
    rcases s.trap_raises_or_keeps n with hr | ⟨hf, hh⟩
    · exact .inl hr
    · exact .inr ⟨hf, .inl hh⟩
  all_goals exact .inr ⟨rfl, .inl rfl⟩

/-- Only the install case of `pcall -1` changes the vector base. -/
theorem Effect.intVector_cases {i : Instr} {s t : State} (h : Effect i s t) :
    t.intVector = s.intVector
      ∨ i = .pcall (BitVec.allOnes 51) ∧ s.readReg 28 = 0 ∧ s.readReg 29 = 1
        ∧ t.intVector = s.readReg 31 := by
  cases h
  case introspect hi => exact s.introspect_intVector.imp_right fun h => ⟨hi, h⟩
  all_goals exact .inl (by simp)

/-- Only an instruction that may write memory changes it. -/
theorem Effect.mem_eq {i : Instr} {s t : State} (h : Effect i s t) (hi : ¬ MayWriteMemory s i) :
    t.mem = s.mem := by
  cases h
  case store hw _ => exact absurd hw hi
  case trap hw => exact absurd hw hi
  all_goals simp

/-- No instruction writes a byte outside the buffer (10_state R44). -/
theorem Effect.read_above {i : Instr} {s t : State} (h : Effect i s t) {a : Nat}
    (ha : s.cfg.memSize ≤ a) : Memory.read t.mem a = Memory.read s.mem a := by
  cases h
  case store hb => rw [State.store_read, if_neg (by omega)]
  case trap n _ _ =>
    rcases s.trap_mem_cases n with e | ⟨hf, e⟩
    · rw [e]
    · rw [e, s.pushFrame_read_outside]
      intro slot hs
      have := hf slot hs
      omega
  all_goals simp

/-- Every instruction keeps the canonical form of the memory and its bounds. -/
theorem Effect.mem_sound {i : Instr} {s t : State} (h : Effect i s t)
    (hwf : Memory.wf s.mem = true) (hin : Memory.within s.cfg.memSize s.mem = true) :
    Memory.wf t.mem = true ∧ Memory.within s.cfg.memSize t.mem = true := by
  cases h
  case store hb => exact ⟨Memory.wf_storeLE hwf _ _ _, Memory.within_storeLE hin hb⟩
  case trap n _ _ =>
    rcases s.trap_mem_cases n with e | ⟨hf, e⟩
    · rw [e]; exact ⟨hwf, hin⟩
    · rw [e]; exact ⟨State.pushFrame_wf _ hwf, State.pushFrame_within _ hf hin⟩
  case introspect => rw [s.introspect_mem]; exact ⟨hwf, hin⟩
  all_goals exact ⟨hwf, hin⟩

/-- Where a fault implied a halt before an instruction, it does so after it. -/
theorem fault_halted_of_effect {i : Instr} {s t : State} (h : Effect i s t)
    (hs : s.fault ≠ none → s.halted = true) : t.fault ≠ none → t.halted = true := by
  rcases h.raises_or_keeps with ⟨k, a, rfl⟩ | ⟨hf, hh | ⟨-, hh⟩⟩
  · exact fun _ => rfl
  · rw [hf, hh]; exact hs
  · exact fun _ => hh

/-! ### The invariant -/

/-- Settles O52: a step that runs an instruction clears `x[0]` last and keeps the rest by its
effect; every other step changes only `pc`, `x[0]`, the halt flag or the fault record. -/
theorem stepKeepsTheInvariant : Obligations.StepKeepsTheInvariant := by
  intro s t ⟨hzero, hwf, hin, hfault⟩ h
  rcases step_cases h with ⟨-, rfl⟩ | ⟨-, -, rfl⟩ | ⟨-, -, -, rfl⟩
    | ⟨-, -, -, i, u, -, hu, rfl⟩ | ⟨-, -, -, op, -, -, rfl⟩
  case inl => exact ⟨hzero, hwf, hin, hfault⟩
  case inr.inl => exact ⟨hzero, hwf, hin, fun _ => rfl⟩
  case inr.inr.inl => exact ⟨hzero, hwf, hin, fun _ => rfl⟩
  case inr.inr.inr.inl =>
    have heff := exec_effect hu
    obtain ⟨hwf', hin'⟩ := heff.mem_sound hwf hin
    have hcfg : u.clearZero.cfg = s.cfg := heff.cfg_eq
    have hfault' : u.fault ≠ none → u.halted = true := fault_halted_of_effect heff hfault
    exact ⟨u.clearZero_regs_zero, hwf', by rw [hcfg]; exact hin', hfault'⟩
  case inr.inr.inr.inr => exact ⟨State.clearZero_regs_zero _, hwf, hin, hfault⟩

/-- Settles O53: the registers of the reset state are zero and its memory lists no byte. -/
theorem resetMeetsTheInvariant : Obligations.ResetMeetsTheInvariant :=
  ⟨rfl, rfl, rfl, fun h => absurd rfl h⟩

/-! ### What one step may change -/

/-- The instruction runs in the state with `pc` advanced; which control it may transfer and what it
may write does not depend on `pc`. -/
theorem mayTransfer_advancePc (s : State) (i : Instr) :
    MayTransfer s.advancePc i ↔ MayTransfer s i := by
  cases i <;> rfl

theorem mayWriteMemory_advancePc (s : State) (i : Instr) :
    MayWriteMemory s.advancePc i ↔ MayWriteMemory s i := by
  cases i <;> rfl

/-- Settles O50: no effect and no other step touches the configuration or the input. -/
theorem configurationIsConstant : Obligations.ConfigurationIsConstant := by
  intro s t h
  rcases step_cases h with ⟨-, rfl⟩ | ⟨-, -, rfl⟩ | ⟨-, -, -, rfl⟩
    | ⟨-, -, -, i, u, -, hu, rfl⟩ | ⟨-, -, -, op, -, -, rfl⟩
  case inr.inr.inr.inl => exact ⟨(exec_effect hu).cfg_eq, (exec_effect hu).haltReq_eq⟩
  all_goals exact ⟨rfl, rfl⟩

/-- Settles O49: a fetched instruction is the only step that can reach the vector base. -/
theorem vectorBaseHasOneWriter : Obligations.VectorBaseHasOneWriter := by
  intro s t h hne
  rcases step_cases h with ⟨-, rfl⟩ | ⟨-, -, rfl⟩ | ⟨-, -, -, rfl⟩
    | ⟨-, -, -, i, u, hd, hu, rfl⟩ | ⟨-, -, -, op, -, -, rfl⟩
  case inr.inr.inr.inl =>
    rcases (exec_effect hu).intVector_cases with e | ⟨rfl, h28, h29, e⟩
    · exact absurd e hne
    · exact ⟨hd, h28, h29, e⟩
  all_goals exact absurd rfl hne

/-- Settles O51: the memory changes by the effects that store or trap, inside the buffer. -/
theorem onlyStoresAndTrapsWriteMemory : Obligations.OnlyStoresAndTrapsWriteMemory := by
  intro s t h
  rcases step_cases h with ⟨-, rfl⟩ | ⟨-, -, rfl⟩ | ⟨-, -, -, rfl⟩
    | ⟨-, -, -, i, u, hd, hu, rfl⟩ | ⟨-, -, -, op, -, -, rfl⟩
  case inr.inr.inr.inl =>
    refine ⟨fun hno a => ?_, fun a ha => (exec_effect hu).read_above ha⟩
    have hkeep := (exec_effect hu).mem_eq ((mayWriteMemory_advancePc s i).not.2 (hno i hd))
    exact congrArg (Memory.read · a) hkeep
  all_goals exact ⟨fun _ _ => rfl, fun _ _ => rfl⟩

/-- Settles O48: a step that changes the record raised a `BoundsFault`, which halts. -/
theorem faultRecordIsSticky : Obligations.FaultRecordIsSticky := by
  intro s t h
  rcases step_cases h with ⟨-, rfl⟩ | ⟨-, -, rfl⟩ | ⟨-, -, -, rfl⟩
    | ⟨-, -, -, i, u, -, hu, rfl⟩ | ⟨-, -, -, op, -, -, rfl⟩
  case inr.inr.inl => exact ⟨fun _ => nofun, fun _ => ⟨nofun, rfl⟩⟩
  case inr.inr.inr.inl =>
    rcases (exec_effect hu).raises_or_keeps with ⟨k, a, rfl⟩ | ⟨hf, -⟩
    · exact ⟨fun _ => nofun, fun _ => ⟨nofun, rfl⟩⟩
    · have hkeep : u.clearZero.fault = s.fault := hf
      exact ⟨fun hs => hkeep ▸ hs, fun hne => absurd hkeep hne⟩
  all_goals exact ⟨id, fun hne => absurd rfl hne⟩

/-- Settles O47: of the effects only `halt` and a `BoundsFault` raise the flag, and the latter
changes no register, byte or vector base. -/
theorem haltFlagHasThreeCauses : Obligations.HaltFlagHasThreeCauses := by
  intro s t h
  rcases step_cases h with ⟨hh, rfl⟩ | ⟨hh, hr, rfl⟩ | ⟨hh, -, -, rfl⟩
    | ⟨hh, -, -, i, u, hd, hu, rfl⟩ | ⟨hh, -, -, op, -, -, rfl⟩
  case inl => exact ⟨fun _ => rfl, fun hno => absurd hh (by simp [hno])⟩
  all_goals refine ⟨fun hyes => absurd hyes (by simp [hh]), fun _ ht => ?_⟩
  case inr.inl => exact .inl hr
  case inr.inr.inl => exact .inr (.inr ⟨nofun, fun _ => rfl, fun _ => rfl, rfl⟩)
  case inr.inr.inr.inl =>
    rcases (exec_effect hu).raises_or_keeps with ⟨k, a, rfl⟩ | ⟨-, hkeep | ⟨rfl, -⟩⟩
    · exact .inr (.inr ⟨nofun, State.readReg_clearZero _, fun _ => rfl, rfl⟩)
    · have hrunning : u.clearZero.halted = false := hkeep.trans hh
      exact absurd (hrunning.symm.trans ht) nofun
    · exact .inr (.inl hd)
  case inr.inr.inr.inr => exact absurd ht (by simp [hh])

end Sys2Proof.Machine

/-! PROOFS. The remaining bitwise and arithmetic instructions (spec 41_bitwise, 42_arithmetic): the
population count, the arithmetic left shift, the products and the quotients. -/

namespace Sys2Proof.Machine

/-! ### Complement and population count (41_bitwise R157, R158) -/

theorem onesBelow_eq_sum (a : Word) (n : Nat) :
    onesBelow a n = ∑ k ∈ Finset.range n, if a.getLsbD k = true then 1 else 0 := by
  induction n with
  | zero => rfl
  | succ n ih =>
    have hbit : (a.getLsbD n).toNat = if a.getLsbD n = true then 1 else 0 := by
      cases a.getLsbD n <;> rfl
    rw [onesBelow, ih, Finset.sum_range_succ, hbit]

/-- The number of 1 bits of a word is the number of its places that hold one. -/
theorem onesBelow_eq_card (a : Word) (n : Nat) :
    onesBelow a n = (Finset.univ.filter fun k : Fin n => a.getLsbD k.val = true).card := by
  rw [onesBelow_eq_sum, Finset.card_filter]
  exact (Fin.sum_univ_eq_sum_range (fun k => if a.getLsbD k = true then 1 else 0) n).symm

/-- A population count is at most 64 and is not cut off. -/
theorem aluCnt_toNat (a : Word) :
    (aluCnt a).toNat
      = (Finset.univ.filter fun k : Fin 64 => a.getLsbD k.val = true).card := by
  have hle : onesBelow a 64 ≤ 64 := by
    rw [onesBelow_eq_card]
    exact (Finset.card_filter_le _ _).trans (by simp)
  rw [← onesBelow_eq_card, aluCnt, BitVec.toNat_ofNat]
  exact Nat.mod_eq_of_lt (by omega)

/-- Settles O12: both write one register, to the complement and to the count. -/
theorem notAndCntResults : Obligations.NotAndCntResults := by
  refine ⟨fun w hw => decodeWord_of_opOf_eq (m := .not) hw,
    fun w hw => decodeWord_of_opOf_eq (m := .cnt) hw, fun rd r1 s => ⟨?_, ?_⟩⟩
  · refine ⟨_, ~~~s.readReg r1, rfl, fun k hk => ?_, s.onlyReg_writeReg rd _⟩
    rw [BitVec.getLsbD_not, decide_eq_true hk, Bool.true_and]
  · exact ⟨_, aluCnt (s.readReg r1), rfl, aluCnt_toNat _, s.onlyReg_writeReg rd _⟩

/-! ### The arithmetic left shift unit (41_bitwise R164) -/

/-- Bit `k` of an arithmetic left shift: the logical one below 64, then `ALS_OVERSHIFT`. -/
theorem aluAls_getLsbD (overshift : AlsOvershift) (a b : Word) (k : Nat) (hk : k < 64) :
    (aluAls overshift a b).getLsbD k =
      if b.toNat < 64 then (decide (b.toNat ≤ k) && a.getLsbD (k - b.toNat))
      else (decide (overshift = .signFill) && a.getLsbD 63) := by
  unfold aluAls
  by_cases hb : b.toNat < 64
  · rw [if_neg (Nat.not_le.2 hb), if_pos hb, aluLls_getLsbD a b k hk]
  · rw [if_pos (Nat.not_lt.1 hb), if_neg hb]
    cases overshift with
    | signFill => simpa using signPattern_getLsbD a hk
    | zero => simp

/-- Settles O15: both forms write the unit's result, whose second operand is the register or the
sign-extended immediate. -/
theorem arithmeticLeftShiftResults : Obligations.ArithmeticLeftShiftResults :=
  ⟨fun _ hw => decodeWord_of_opOf_eq (m := .als) hw,
    fun _ hw => decodeWord_of_opOf_eq (m := .alsi) hw,
    fun rd r1 r2 imm s =>
      ⟨⟨_, _, rfl, s.onlyReg_writeReg rd _,
          aluAls_getLsbD s.cfg.alsOvershift (s.readReg r1) (s.readReg r2)⟩,
        ⟨_, _, rfl, s.onlyReg_writeReg rd _,
          aluAls_getLsbD s.cfg.alsOvershift (s.readReg r1) (sext46 imm)⟩⟩⟩

/-! ### The product units (42_arithmetic R185, R187) -/

/-- The low half of a product does not depend on how its operands are read. -/
theorem aluUmul_eq_aluSmul (a b : Word) : aluUmul a b = aluSmul a b := by
  have hsigned : aluSmul a b = a * b := by
    rw [aluSmul, BitVec.ofInt_mul, BitVec.ofInt_toInt, BitVec.ofInt_toInt]
  have hunsigned : aluUmul a b = a * b := rfl
  rw [hsigned, hunsigned]

theorem aluUmul_toNat (a b : Word) : (aluUmul a b).toNat = a.toNat * b.toNat % 2 ^ 64 :=
  BitVec.toNat_ofNat _ _

theorem aluSmul_toNat (a b : Word) : ((aluSmul a b).toNat : Int) = a.toInt * b.toInt % 2 ^ 64 :=
  ofInt_toNat_eq_emod 64 _

/-- Settles O17: the two units agree, so each satisfies both readings. -/
theorem multiplyResults : Obligations.MultiplyResults := by
  have hu : ∀ a b : Word, (aluUmul a b).toNat = a.toNat * b.toNat % 2 ^ 64
      ∧ ((aluUmul a b).toNat : Int) = a.toInt * b.toInt % 2 ^ 64 := fun a b =>
    ⟨aluUmul_toNat a b, aluUmul_eq_aluSmul a b ▸ aluSmul_toNat a b⟩
  have hs : ∀ a b : Word, ((aluSmul a b).toNat : Int) = a.toInt * b.toInt % 2 ^ 64
      ∧ (aluSmul a b).toNat = a.toNat * b.toNat % 2 ^ 64 := fun a b =>
    ⟨aluSmul_toNat a b, aluUmul_eq_aluSmul a b ▸ aluUmul_toNat a b⟩
  exact ⟨computesR_of_regForm .umul (fun _ => rfl) (fun _ _ _ _ => rfl) hu,
    computesS_of_immForm .umuli (fun _ => rfl) (fun _ _ _ _ => rfl) hu,
    computesR_of_regForm .smul (fun _ => rfl) (fun _ _ _ _ => rfl) hs,
    computesS_of_immForm .smuli (fun _ => rfl) (fun _ _ _ _ => rfl) hs⟩

/-! ### The quotient units (42_arithmetic R190, R192) -/

/-- The quotient is no larger than the dividend and is not cut off. -/
theorem aluUdiv_toNat (a b : Word) : (aluUdiv a b).toNat = a.toNat / b.toNat := by
  rw [aluUdiv, BitVec.toNat_ofNat]
  exact Nat.mod_eq_of_lt ((Nat.div_le_self _ _).trans_lt a.isLt)

/-- The remainder of a division rounded toward zero has the dividend's sign. -/
theorem tmod_mul_self_nonneg (a b : Int) : 0 ≤ a.tmod b * a := by
  rcases le_total 0 a with ha | ha
  · exact mul_nonneg (Int.tmod_nonneg b ha) ha
  · have hneg : 0 ≤ -a.tmod b := by
      rw [← Int.neg_tmod]
      exact Int.tmod_nonneg b (by omega)
    exact mul_nonneg_of_nonpos_of_nonpos (by omega) ha

/-- The signed quotient, by its remainder. -/
theorem aluSdiv_spec (a b : Word) (hb : b ≠ 0) :
    ∃ q r : Int, a.toInt = b.toInt * q + r ∧ r.natAbs < b.toInt.natAbs ∧ 0 ≤ r * a.toInt
      ∧ ((aluSdiv a b).toNat : Int) = q % 2 ^ 64 := by
  have hdivisor : b.toInt ≠ 0 := fun h => hb (BitVec.eq_of_toInt_eq h)
  refine ⟨a.toInt.tdiv b.toInt, a.toInt.tmod b.toInt, (Int.mul_tdiv_add_tmod _ _).symm, ?_,
    tmod_mul_self_nonneg _ _, ofInt_toNat_eq_emod 64 _⟩
  rw [Int.natAbs_tmod]
  exact Nat.mod_lt _ (Int.natAbs_pos.2 hdivisor)

/-! ### The divides (42_arithmetic R189) -/

theorem divForm_zero (f : Word → Word → Word) (rd : Reg) (a : Word) (s : State) :
    divForm f rd a 0 s = .next (s.trap 0) :=
  if_pos rfl

theorem divForm_of_ne_zero (f : Word → Word → Word) (rd : Reg) (a : Word) {b : Word} (hb : b ≠ 0)
    (s : State) : divForm f rd a b s = .next (s.writeReg rd (f a b)) :=
  if_neg hb

/-- A mnemonic of the group `INT_DIV` is in the dispatch table exactly where bit 2 of `CAPS` is
set. -/
theorem dispatch_intDiv {m : Mnemonic} (hm : m.row.cap = some .intDiv) (c : Config) (w : Word)
    (hc : c.opc = OpcodeMap.standard) (hw : opOf w = m.row.opcode) :
    dispatch c w = if c.caps.getLsbD 2 then decodeWord w else .unassigned m.row.opcode := by
  have hdecode : decodeWord w = .instr (m.read w) := decodeWord_of_opOf_eq hw
  have hpresent : m.presentIn c.caps = c.caps.getLsbD 2 := by
    rw [Mnemonic.presentIn, hm]; rfl
  rw [dispatch_of_decodeWith (c := c) (by rw [hc]; exact hdecode), Mnemonic.read_mnemonic,
    hpresent, hdecode, hw]

/-- An R-shape instruction of the group that executes as `divForm f` divides as `f` does. -/
theorem dividesR_of_divForm (m : Mnemonic) {mk : Reg → Reg → Reg → Instr}
    {f : Word → Word → Word} {P : Word → Word → Word → Prop} (hm : m.row.cap = some .intDiv)
    (hread : ∀ w, m.read w = mk (rdOf w) (r1Of w) (r2Of w))
    (hexec : ∀ rd r1 r2 s, exec (mk rd r1 r2) s = divForm f rd (s.readReg r1) (s.readReg r2) s)
    (hf : ∀ a b, b ≠ 0 → P a b (f a b)) : DividesR m.row.opcode mk P := by
  refine ⟨fun w hw => ?_, dispatch_intDiv hm, fun rd r1 r2 s => ⟨fun h => ?_, fun h => ?_⟩⟩
  · rw [decodeWord_of_opOf_eq hw, hread]
  · exact ⟨_, _, (hexec _ _ _ _).trans (divForm_of_ne_zero f rd _ h s), hf _ _ h,
      s.onlyReg_writeReg rd _⟩
  · rw [hexec, h, divForm_zero]

/-- An S-shape instruction likewise: the immediate is zero exactly when its sign extension is. -/
theorem dividesS_of_divForm (m : Mnemonic) {mk : Reg → Reg → BitVec 46 → Instr}
    {f : Word → Word → Word} {P : Word → Word → Word → Prop} (hm : m.row.cap = some .intDiv)
    (hread : ∀ w, m.read w = mk (rdOf w) (r1Of w) (imm46Of w))
    (hexec : ∀ rd r1 imm s, exec (mk rd r1 imm) s = divForm f rd (s.readReg r1) (sext46 imm) s)
    (hf : ∀ a b, b ≠ 0 → P a b (f a b)) : DividesS m.row.opcode mk P := by
  refine ⟨fun w hw => ?_, dispatch_intDiv hm, fun rd r1 imm s => ⟨fun h => ?_, fun h => ?_⟩⟩
  · rw [decodeWord_of_opOf_eq hw, hread]
  · have hne : sext46 imm ≠ 0 := (sext46_eq_zero imm).not.2 h
    exact ⟨_, _, (hexec _ _ _ _).trans (divForm_of_ne_zero f rd _ hne s), hf _ _ hne,
      s.onlyReg_writeReg rd _⟩
  · rw [hexec, (sext46_eq_zero imm).2 h, divForm_zero]

/-- Settles O18: the floor of the quotient needs no non-zero divisor, only the trap does. -/
theorem unsignedDivideResults : Obligations.UnsignedDivideResults :=
  ⟨dividesR_of_divForm .udiv rfl (fun _ => rfl) (fun _ _ _ _ => rfl) fun a b _ => aluUdiv_toNat a b,
    dividesS_of_divForm .udivi rfl (fun _ => rfl) (fun _ _ _ _ => rfl)
      fun a b _ => aluUdiv_toNat a b⟩

/-- Settles O19: the remainder of the truncated division is the one the statement asks for. -/
theorem signedDivideResults : Obligations.SignedDivideResults :=
  ⟨dividesR_of_divForm .sdiv rfl (fun _ => rfl) (fun _ _ _ _ => rfl) aluSdiv_spec,
    dividesS_of_divForm .sdivi rfl (fun _ => rfl) (fun _ _ _ _ => rfl) aluSdiv_spec⟩

end Sys2Proof.Machine

/-! PROOFS. Control flow, sets and system instructions (spec 43_memory_control sections 4 and 5,
44_set_imm_trap_io): the branches, the conditional sets, the upper immediates, and the instructions
that touch one field or none. -/

namespace Sys2Proof.Machine

/-! ### Jumps and branches (43_memory_control R221 to R228) -/

/-- Settles O28: the target is read from `s`, so that the link cannot alter it. -/
theorem jalrLinksAndJumps : Obligations.JalrLinksAndJumps := by
  refine ⟨fun w hw => decodeWord_of_opOf_eq (m := .jalr) hw, fun rd r1 imm s => ⟨_, rfl, ?_, rfl⟩⟩
  obtain ⟨link, -⟩ := s.onlyReg_writeReg rd s.pc
  exact link.setPc _

theorem branchForm_of_true {cond : Word → Word → Bool} {a b : Reg} {s : State}
    (h : cond (s.readReg a) (s.readReg b) = true) (off : BitVec 46) :
    branchForm cond a b off s = .next (s.setPc (s.branchTarget off)) :=
  if_pos h

theorem branchForm_of_false {cond : Word → Word → Bool} {a b : Reg} {s : State}
    (h : ¬ cond (s.readReg a) (s.readReg b) = true) (off : BitVec 46) :
    branchForm cond a b off s = .next s :=
  if_neg h

theorem sameControl_refl (s : State) : SameControl s s := ⟨rfl, rfl, rfl, rfl, rfl⟩

/-- An instruction that executes as `branchForm cond` branches on what `cond` decides. -/
theorem branches_of_branchForm (m : Mnemonic) {mk : Reg → Reg → BitVec 46 → Instr}
    {cond : Word → Word → Bool} {P : Word → Word → Prop}
    (hread : ∀ w, m.read w = mk (r1Of w) (rdOf w) (imm46Of w))
    (hexec : ∀ a b off s, exec (mk a b off) s = branchForm cond a b off s)
    (hcond : ∀ a b, cond a b = true ↔ P a b) : Branches m.row.opcode mk P := by
  refine ⟨fun w hw => ?decodes, fun a b off s => ?executes⟩
  case decodes => rw [decodeWord_of_opOf_eq hw, hread]
  case executes =>
    rw [hexec]
    by_cases h : cond (s.readReg a) (s.readReg b) = true
    · exact ⟨_, branchForm_of_true h off, fun _ => rfl, fun hno => absurd ((hcond _ _).1 h) hno,
        fun _ => rfl, fun _ => rfl, sameControl_refl s⟩
    · exact ⟨_, branchForm_of_false h off, fun hyes => absurd ((hcond _ _).2 hyes) h, fun _ => rfl,
        fun _ => rfl, fun _ => rfl, sameControl_refl s⟩

/-- Settles O29, one condition at a time. -/
theorem branchesFollowTheirConditions : Obligations.BranchesFollowTheirConditions :=
  ⟨branches_of_branchForm .je (fun _ => rfl) (fun _ _ _ _ => rfl) fun _ _ => beq_iff_eq,
    branches_of_branchForm .jne (fun _ => rfl) (fun _ _ _ _ => rfl) fun _ _ => bne_iff_ne,
    branches_of_branchForm .jgu (fun _ => rfl) (fun _ _ _ _ => rfl) fun _ _ => decide_eq_true_iff,
    branches_of_branchForm .jgs (fun _ => rfl) (fun _ _ _ _ => rfl) fun _ _ => decide_eq_true_iff,
    branches_of_branchForm .jleu (fun _ => rfl) (fun _ _ _ _ => rfl) fun _ _ => decide_eq_true_iff,
    branches_of_branchForm .jles (fun _ => rfl) (fun _ _ _ _ => rfl) fun _ _ => decide_eq_true_iff⟩

/-! ### Conditional sets (44_set_imm_trap_io R250 to R257) -/

/-- The word a set writes on a decided comparison. -/
theorem boolWord_decide (p : Prop) [Decidable p] : boolWord (decide p) = if p then 1 else 0 := by
  simp only [boolWord, decide_eq_true_eq]

/-- Settles O30: the R and S forms share their comparison. -/
theorem conditionalSetResults : Obligations.ConditionalSetResults :=
  ⟨computesR_of_regForm .setgu (fun _ => rfl) (fun _ _ _ _ => rfl) fun _ _ => boolWord_decide _,
    computesS_of_immForm .setgui (fun _ => rfl) (fun _ _ _ _ => rfl) fun _ _ => boolWord_decide _,
    computesR_of_regForm .setgs (fun _ => rfl) (fun _ _ _ _ => rfl) fun _ _ => boolWord_decide _,
    computesS_of_immForm .setgsi (fun _ => rfl) (fun _ _ _ _ => rfl) fun _ _ => boolWord_decide _,
    computesR_of_regForm .setleu (fun _ => rfl) (fun _ _ _ _ => rfl) fun _ _ => boolWord_decide _,
    computesS_of_immForm .setleui (fun _ => rfl) (fun _ _ _ _ => rfl) fun _ _ => boolWord_decide _,
    computesR_of_regForm .setles (fun _ => rfl) (fun _ _ _ _ => rfl) fun _ _ => boolWord_decide _,
    computesS_of_immForm .setlesi (fun _ => rfl) (fun _ _ _ _ => rfl) fun _ _ => boolWord_decide _⟩

/-! ### Upper immediates (30_encoding R98) -/

/-- The 51 bits of the immediate stand on bits 63:13. -/
theorem upperImm_getLsbD (imm : BitVec 51) {k : Nat} (hk : k < 64) :
    (upperImm imm).getLsbD k = (decide (13 ≤ k) && imm.getLsbD (k - 13)) := by
  rw [upperImm, BitVec.getLsbD_shiftLeft, BitVec.getLsbD_setWidth, decide_eq_true hk,
    decide_eq_true (show k - 13 < 64 by omega), Bool.true_and, Bool.true_and, ← decide_not]
  simp only [Nat.not_lt]

theorem upperImm_toNat (imm : BitVec 51) : (upperImm imm).toNat = imm.toNat * 2 ^ 13 := by
  have := imm.isLt
  rw [upperImm, BitVec.toNat_shiftLeft, BitVec.toNat_setWidth, Nat.shiftLeft_eq]
  omega

/-- Settles O31: an OR clears no bit. -/
theorem luiMergesByOr : Obligations.LuiMergesByOr := by
  refine ⟨fun w hw => decodeWord_of_opOf_eq (m := .lui) hw,
    fun r imm s => ⟨_, s.readReg r ||| upperImm imm, rfl, s.onlyReg_writeReg r _, fun k hk => ?_⟩⟩
  rw [BitVec.getLsbD_or, upperImm_getLsbD imm hk]

/-- Settles O32: `pc` already holds `pc_next`. -/
theorem auipcAddsToPcNext : Obligations.AuipcAddsToPcNext := by
  refine ⟨fun w hw => decodeWord_of_opOf_eq (m := .auipc) hw,
    fun r imm s => ⟨_, s.pc + upperImm imm, rfl, s.onlyReg_writeReg r _, ?_⟩⟩
  rw [BitVec.toNat_add, upperImm_toNat]

/-! ### The breakpoint, the ports and `halt` (44_set_imm_trap_io R265 to R275) -/

/-- Settles O33: the five meanings are the identity. -/
theorem breakAndPortsChangeNothing : Obligations.BreakAndPortsChangeNothing :=
  fun _ _ _ _ => ⟨rfl, rfl, rfl, rfl, rfl⟩

/-- Settles O35: `State.halt` writes the flag alone. -/
theorem haltSetsTheFlag : Obligations.HaltSetsTheFlag := fun s =>
  ⟨s.halt, rfl, s.halt_halted, s.halt_pc, s.halt_fault, s.halt_intVector, s.halt_cfg,
    s.halt_haltReq, s.readReg_halt, fun _ => rfl, s.readReg_halt 1⟩

end Sys2Proof.Machine

/-! PROOFS. Memory (spec 20_memory, 43_memory_control sections 2 and 3): what a load and a store of
any width read, write and leave alone, and the canonical form. -/

namespace Sys2Proof.Machine

/-! ### Little-endian numbers as sums and parts (20_memory R61, R63) -/

/-- A little-endian load is the sum of its bytes, each at its place. -/
theorem Memory.loadLE_eq_bytesValue (m : Memory) (a n : Nat) :
    Memory.loadLE m a n = bytesValue m a n := by
  induction n generalizing a with
  | zero => rfl
  | succ n ih =>
    have htail : Memory.loadLE m a (n + 1)
        = (Memory.read m a).toNat + 256 * Memory.loadLE m (a + 1) n := rfl
    rw [htail, ih, bytesValue, bytesValue, Finset.sum_range_succ', Finset.mul_sum,
      Nat.add_comm]
    congr 1
    · refine Finset.sum_congr rfl fun k _ => ?_
      rw [show 8 * (k + 1) = 8 * k + 8 by omega, pow_add, show a + 1 + k = a + (k + 1) by omega]
      ring
    · simp

/-- A load of at most 8 bytes fits in a register. -/
theorem State.load_toNat (s : State) (a : Word) {n : Nat} (hn : n ≤ 8) :
    (s.load a n).toNat = bytesValue s.mem a.toNat n := by
  have hlt := Memory.loadLE_lt s.mem a.toNat n
  have hpow : 256 ^ n ≤ 2 ^ 64 := (Nat.pow_le_pow_right (by omega) hn).trans_eq (by norm_num)
  rw [State.load, BitVec.toNat_ofNat, Nat.mod_eq_of_lt (by omega), Memory.loadLE_eq_bytesValue]

/-- The place value of byte `k` in bits. -/
theorem byte_place_eq (k : Nat) : 256 ^ k = 2 ^ (8 * k) := by
  norm_num [pow_mul]

/-- Byte `k` of a word, as a quotient and as a field. -/
theorem ofNat_div_eq_extractLsb' (v : Word) (k : Nat) :
    BitVec.ofNat 8 (v.toNat / 256 ^ k) = v.extractLsb' (8 * k) 8 := by
  apply BitVec.eq_of_toNat_eq
  rw [extractLsb'_toNat_eq_div_mod, BitVec.toNat_ofNat, byte_place_eq]

/-- Loads of the same bytes give the same number. -/
theorem Memory.loadLE_congr {m m' : Memory} {a n : Nat}
    (h : ∀ b, a ≤ b → b < a + n → Memory.read m b = Memory.read m' b) :
    Memory.loadLE m a n = Memory.loadLE m' a n := by
  rw [Memory.loadLE, Memory.bytesAt_congr h, Memory.loadLE]

/-- A load inside a store reads the stored number from its byte on: it reads what a store of that
part alone leaves there. -/
theorem Memory.loadLE_storeLE_inside (m : Memory) (a v : Nat) {n j k : Nat} (h : j + k ≤ n) :
    Memory.loadLE (Memory.storeLE m a n v) (a + j) k = v / 256 ^ j % 256 ^ k := by
  rw [← Memory.loadLE_storeLE m (a + j) k]
  refine Memory.loadLE_congr fun b hb hb' => ?_
  rw [Memory.read_storeLE, Memory.read_storeLE, if_pos (by omega), if_pos (by omega),
    Nat.div_div_eq_div_mul, ← pow_add, show j + (b - (a + j)) = b - a by omega]

/-- A load inside a stored double-word reads a field of it. -/
theorem State.load_inside_store (s : State) {a v : Word} {j k : Nat} (ha : a.toNat + 8 ≤ 2 ^ 64)
    (h : j + k ≤ 8) (hj : j < 8) :
    (s.store a 8 v).load (a + BitVec.ofNat 64 j) k
      = (v.extractLsb' (8 * j) (8 * k)).setWidth 64 := by
  have haddr : (a + BitVec.ofNat 64 j).toNat = a.toNat + j := by
    rw [BitVec.toNat_add, BitVec.toNat_ofNat]
    omega
  apply BitVec.eq_of_toNat_eq
  rw [State.load, haddr, State.store_mem, Memory.loadLE_storeLE_inside _ _ _ h,
    BitVec.toNat_ofNat, BitVec.toNat_setWidth, extractLsb'_toNat_eq_div_mod, byte_place_eq,
    byte_place_eq]

/-- Settles O25: each read is a part of the stored double-word. -/
theorem narrowReadsSeeStoredBytes : Obligations.NarrowReadsSeeStoredBytes := by
  intro s a v ha
  have hlow := s.load_inside_store (v := v) (j := 0) (k := 4) ha (by omega) (by omega)
  rw [BitVec.add_zero] at hlow
  have hhigh := s.load_inside_store (v := v) (j := 4) (k := 4) ha (by omega) (by omega)
  exact ⟨fun k hk => s.load_inside_store ha (by omega) hk, hlow, hhigh, s.load_store_same a v⟩

/-! ### Loads and stores (43_memory_control R207, R208) -/

theorem loadForm_of_inBounds {n : Nat} {r1 : Reg} {imm : BitVec 46} {s : State}
    (h : (s.effAddr r1 imm).toNat + n ≤ s.cfg.memSize) (rd : Reg) :
    loadForm n rd r1 imm s = .next (s.writeReg rd (s.load (s.effAddr r1 imm) n)) :=
  if_pos ((s.inBounds_iff _ _).2 h)

theorem loadForm_of_outOfBounds {n : Nat} {r1 : Reg} {imm : BitVec 46} {s : State}
    (h : s.cfg.memSize < (s.effAddr r1 imm).toNat + n) (rd : Reg) :
    loadForm n rd r1 imm s = .next (s.raiseBounds .load (s.effAddr r1 imm)) :=
  if_neg ((s.inBounds_iff _ _).not.2 (by omega))

theorem storeForm_of_inBounds {n : Nat} {r1 : Reg} {imm : BitVec 46} {s : State}
    (h : (s.effAddr r1 imm).toNat + n ≤ s.cfg.memSize) (rd : Reg) :
    storeForm n rd r1 imm s = .next (s.store (s.effAddr r1 imm) n (s.readReg rd)) :=
  if_pos ((s.inBounds_iff _ _).2 h)

theorem storeForm_of_outOfBounds {n : Nat} {r1 : Reg} {imm : BitVec 46} {s : State}
    (h : s.cfg.memSize < (s.effAddr r1 imm).toNat + n) (rd : Reg) :
    storeForm n rd r1 imm s = .next (s.raiseBounds .store (s.effAddr r1 imm)) :=
  if_neg ((s.inBounds_iff _ _).not.2 (by omega))

/-- An instruction that executes as `loadForm n` loads `n` bytes. -/
theorem loads_of_loadForm (m : Mnemonic) {mk : Reg → Reg → BitVec 46 → Instr} {n : Nat}
    (hn : n ≤ 8) (hread : ∀ w, m.read w = mk (rdOf w) (r1Of w) (imm46Of w))
    (hexec : ∀ rd r1 imm s, exec (mk rd r1 imm) s = loadForm n rd r1 imm s) :
    Loads m.row.opcode mk n := by
  refine ⟨fun w hw => ?decodes, fun rd r1 imm s h => ?executes⟩
  case decodes => rw [decodeWord_of_opOf_eq hw, hread]
  case executes =>
    exact ⟨_, _, (hexec _ _ _ _).trans (loadForm_of_inBounds h rd), s.load_toNat _ hn,
      s.onlyReg_writeReg rd _⟩

/-- Settles O21: `ldd` is the load form at its full width. -/
theorem doubleWordLoadResults : Obligations.DoubleWordLoadResults :=
  loads_of_loadForm .ldd (by omega) (fun _ => rfl) (fun _ _ _ _ => rfl)

/-- Settles O22: the narrow loads are the same form, which extends with zeros. -/
theorem narrowLoadResults : Obligations.NarrowLoadResults :=
  ⟨loads_of_loadForm .ldb (by omega) (fun _ => rfl) (fun _ _ _ _ => rfl),
    loads_of_loadForm .ldh (by omega) (fun _ => rfl) (fun _ _ _ _ => rfl),
    loads_of_loadForm .ldw (by omega) (fun _ => rfl) (fun _ _ _ _ => rfl)⟩

/-- An instruction that executes as `storeForm n` stores `n` bytes. -/
theorem stores_of_storeForm (m : Mnemonic) {mk : Reg → Reg → BitVec 46 → Instr} {n : Nat}
    (hread : ∀ w, m.read w = mk (rdOf w) (r1Of w) (imm46Of w))
    (hexec : ∀ rd r1 imm s, exec (mk rd r1 imm) s = storeForm n rd r1 imm s) :
    Stores m.row.opcode mk n := by
  refine ⟨fun w hw => ?decodes, fun rd r1 imm s h => ?executes⟩
  case decodes => rw [decodeWord_of_opOf_eq hw, hread]
  case executes =>
    refine ⟨_, (hexec _ _ _ _).trans (storeForm_of_inBounds h rd), fun k hk => ?_, fun a ha => ?_,
      fun _ => rfl, rfl, sameControl_refl s⟩
    · rw [State.store_read, if_pos (by omega), Nat.add_sub_cancel_left, ofNat_div_eq_extractLsb']
    · rw [State.store_read, if_neg (by omega)]

/-- Settles O23: the four stores are one form at four widths. -/
theorem storeResults : Obligations.StoreResults :=
  ⟨stores_of_storeForm .stb (fun _ => rfl) (fun _ _ _ _ => rfl),
    stores_of_storeForm .sth (fun _ => rfl) (fun _ _ _ _ => rfl),
    stores_of_storeForm .stw (fun _ => rfl) (fun _ _ _ _ => rfl),
    stores_of_storeForm .std (fun _ => rfl) (fun _ _ _ _ => rfl)⟩

/-! ### Accesses out of bounds (60_exceptions R320) -/

/-- Raising a `BoundsFault` writes the record and the halt flag and keeps all else. -/
theorem State.faultsAt_raiseBounds (s : State) (kind : AccessKind) (addr : Word) :
    FaultsAt s (s.raiseBounds kind addr) kind addr :=
  ⟨rfl, rfl, rfl, rfl, rfl, rfl, fun _ => rfl, fun _ => rfl⟩

/-- Settles O24: the loads share one form and the stores another, each with its width. -/
theorem outOfBoundsLoadsAndStoresFault : Obligations.OutOfBoundsLoadsAndStoresFault := by
  refine fun rd r1 imm s => ⟨fun n i hi h => ?loads, fun n i hi h => ?stores⟩
  case loads =>
    have hexec : exec i s = loadForm n rd r1 imm s := by
      simp only [List.mem_cons, Prod.mk.injEq, List.not_mem_nil, or_false] at hi
      rcases hi with ⟨rfl, rfl⟩ | ⟨rfl, rfl⟩ | ⟨rfl, rfl⟩ | ⟨rfl, rfl⟩ <;> rfl
    exact ⟨_, hexec.trans (loadForm_of_outOfBounds h rd), s.faultsAt_raiseBounds _ _⟩
  case stores =>
    have hexec : exec i s = storeForm n rd r1 imm s := by
      simp only [List.mem_cons, Prod.mk.injEq, List.not_mem_nil, or_false] at hi
      rcases hi with ⟨rfl, rfl⟩ | ⟨rfl, rfl⟩ | ⟨rfl, rfl⟩ | ⟨rfl, rfl⟩ <;> rfl
    exact ⟨_, hexec.trans (storeForm_of_outOfBounds h rd), s.faultsAt_raiseBounds _ _⟩

/-! ### The canonical form (10_state R44) -/

theorem Memory.read_cons_head (c : Host.Cell) (m : Memory) : Memory.read (c :: m) c.1 = c.2 := by
  simp [Memory.read]

/-- The tail of a canonical memory reads as the memory does, but for the first entry's address. -/
theorem Memory.read_tail {c : Host.Cell} {m : Memory} (h : Memory.startsAbove c.1 m = true)
    (a : Nat) :
    Memory.read m a = if a ≤ c.1 then Memory.unlisted else Memory.read (c :: m) a := by
  by_cases ha : a ≤ c.1
  · rw [if_pos ha, Memory.read_of_startsAbove h ha]
  · rw [if_neg ha, Memory.read, if_neg (by omega), if_neg (by omega)]

/-- Below the first entry of a memory nothing is listed, so a canonical memory that reads alike
starts no lower. -/
theorem Memory.head_le_of_read_eq {c d : Host.Cell} {m m' : Memory}
    (hw : Memory.wf (c :: m) = true) (hr : ∀ a, Memory.read (c :: m) a = Memory.read (d :: m') a) :
    d.1 ≤ c.1 := by
  obtain ⟨hc, -, -⟩ := (Memory.wf_cons c m).1 hw
  by_contra hlt
  have hread : c.2 = Memory.unlisted := by
    rw [← Memory.read_cons_head c m, hr, Memory.read, if_neg (by omega), if_pos (by omega)]
  exact hc hread

/-- Settles O60, by induction along both lists: the first entries agree, and then the tails read
alike. -/
theorem canonicalMemoriesAreEqual : Obligations.CanonicalMemoriesAreEqual := by
  intro m
  induction m with
  | nil =>
    intro m' _ hw' hr
    cases m' with
    | nil => rfl
    | cons d m' =>
      obtain ⟨hd, -, -⟩ := (Memory.wf_cons d m').1 hw'
      exact absurd ((Memory.read_cons_head d m').symm.trans (hr d.1).symm) hd
  | cons c m ih =>
    intro m' hw hw' hr
    cases m' with
    | nil =>
      obtain ⟨hc, -, -⟩ := (Memory.wf_cons c m).1 hw
      exact absurd ((Memory.read_cons_head c m).symm.trans (hr c.1)) hc
    | cons d m' =>
      have haddr : c.1 = d.1 :=
        Nat.le_antisymm (Memory.head_le_of_read_eq hw' fun a => (hr a).symm)
          (Memory.head_le_of_read_eq hw hr)
      have hvalue : c.2 = d.2 := by
        rw [← Memory.read_cons_head c m, ← Memory.read_cons_head d m', ← haddr, hr]
      obtain rfl : c = d := Prod.ext haddr hvalue
      obtain ⟨-, hs, hm⟩ := (Memory.wf_cons c m).1 hw
      obtain ⟨-, hs', hm'⟩ := (Memory.wf_cons c m').1 hw'
      rw [ih m' hm hm' fun a => by rw [Memory.read_tail hs, Memory.read_tail hs', hr]]

end Sys2Proof.Machine

/-! PROOFS. Traps and the introspection call (spec 60_exceptions). -/

namespace Sys2Proof.Machine

/-! ### The frame of a trap (R304, R321) -/

/-- The slots of the frame lie at the 33 slot addresses, in push order. -/
theorem State.trapFrame_map_fst (s : State) :
    s.trapFrame.map Prod.fst = (List.range 33).map s.slotAddr := rfl

/-- The bounds check of the model's frame is the one of the statements. -/
theorem State.frameFits_iff (s : State) :
    s.FrameFits ↔ ∀ slot ∈ s.trapFrame, slot.1.toNat + 8 ≤ s.cfg.memSize := by
  have hslots : (∀ a ∈ s.trapFrame.map Prod.fst, a.toNat + 8 ≤ s.cfg.memSize) ↔ s.FrameFits := by
    rw [s.trapFrame_map_fst, List.forall_mem_map]
    simp only [List.mem_range, State.FrameFits]
  rw [← hslots, List.forall_mem_map]

/-- The slot the model reports is the first slot address out of bounds. -/
theorem State.badSlot_trapFrame {s : State} {k : Nat} (hk : k < 33)
    (hbefore : ∀ j, j < k → (s.slotAddr j).toNat + 8 ≤ s.cfg.memSize)
    (hbad : s.cfg.memSize < (s.slotAddr k).toNat + 8) :
    s.badSlot s.trapFrame = some (s.slotAddr k) := by
  have hfind : (List.range 33).find? (fun k => !s.inBounds (s.slotAddr k) 8) = some k := by
    rw [List.find?_range_eq_some]
    refine ⟨?_, List.mem_range.2 hk, fun j hj => ?_⟩
    · rw [Bool.not_eq_true', ← Bool.not_eq_true, s.inBounds_iff]
      omega
    · rw [Bool.not_not, s.inBounds_iff]
      exact hbefore j hj
  have hslots : s.badSlot s.trapFrame
      = (s.trapFrame.map Prod.fst).find? (fun a => !s.inBounds a 8) := by
    rw [List.find?_map]
    rfl
  rw [hslots, s.trapFrame_map_fst, List.find?_map]
  exact congrArg (Option.map s.slotAddr) hfind

theorem State.trap_of_badSlot {s : State} {a : Word} (h : s.badSlot s.trapFrame = some a)
    (n : Word) : s.trap n = s.raiseBounds .frame a := by
  rw [State.trap, h]

theorem State.trap_of_bad_entry {s : State} {n : Word} (hf : s.FrameFits)
    (hv : s.cfg.memSize < (s.vectorEntry n).toNat + 8) :
    s.trap n = s.raiseBounds .vector (s.vectorEntry n) := by
  rw [State.trap, (s.badSlot_eq_none _).2 (s.frameFits_iff.1 hf)]
  exact if_neg ((s.inBounds_iff _ _).not.2 (by omega))

/-- Settles O38: both checks come before the first write, so a `BoundsFault` is all there is. -/
theorem trapChecksBeforeWriting : Obligations.TrapChecksBeforeWriting := by
  refine fun s n => ⟨fun k hk hbefore hbad => ?frame, fun hf hv => ?vector⟩
  case frame =>
    rw [State.trap_of_badSlot (State.badSlot_trapFrame hk hbefore hbad)]
    exact s.faultsAt_raiseBounds _ _
  case vector =>
    rw [State.trap_of_bad_entry hf hv]
    exact s.faultsAt_raiseBounds _ _

/-! ### A trap that is taken (R302) -/

/-- The slots of the frame hold the registers as they were, since no two slots overlap. -/
theorem State.load_pushFrame_reg (s : State) (r : Reg) :
    (s.pushFrame s.trapFrame).load (s.slotAddr r.val) 8 = s.readReg r :=
  s.pushFrame_load_slot (slot := (s.slotAddr r.val, s.readReg r))
    ((s.mem_trapFrame _).2 (.inl ⟨r, rfl⟩)) s.trapFrame_disjoint

/-- The last slot holds `pc_next`. -/
theorem State.load_pushFrame_pc (s : State) :
    (s.pushFrame s.trapFrame).load (s.slotAddr 32) 8 = s.pc :=
  s.pushFrame_load_slot (slot := (s.slotAddr 32, s.pc)) ((s.mem_trapFrame _).2 (.inr rfl))
    s.trapFrame_disjoint

theorem State.load_setPc (s : State) (t a : Word) (n : Nat) :
    (s.setPc t).load a n = s.load a n := rfl

/-- Settles O36: the frame is written before the stack pointer drops, and the two register and `pc`
writes after it leave memory alone. -/
theorem trapSavesContextAndDispatches : Obligations.TrapSavesContextAndDispatches := by
  rintro s n ⟨hframe, hentry⟩
  rw [s.trap_taken n (s.frameFits_iff.1 hframe) hentry]
  refine ⟨fun r => ?regSlots, ?pcSlot, fun r => ?regs, ?entry, fun a ha => ?bytes, ?control⟩
  case regSlots => rw [State.load_setPc, State.load_writeReg, s.load_pushFrame_reg]
  case pcSlot => rw [State.load_setPc, State.load_writeReg, s.load_pushFrame_pc]
  case regs =>
    rw [State.readReg_setPc, State.readReg_writeReg, State.readReg_pushFrame]
    by_cases hr : r = 0
    · rw [hr]; rfl
    · rw [if_neg hr]; rfl
  case entry =>
    rw [State.setPc_pc, State.load_setPc, State.load_writeReg]
    rfl
  case bytes =>
    rw [State.setPc_mem, State.writeReg_mem]
    refine s.pushFrame_read_outside _ a fun slot hslot => ?_
    rcases (s.mem_trapFrame slot).1 hslot with ⟨r, rfl⟩ | rfl
    · exact ha r.val (by omega)
    · exact ha 32 (by omega)
  case control => exact ⟨by simp, by simp, by simp, by simp, by simp⟩

/-- Settles O37: only the all-ones immediate sign-extends to the introspection call. -/
theorem pcallTakesItsTrap : Obligations.PcallTakesItsTrap := by
  refine ⟨fun w hw => decodeWord_of_opOf_eq (m := .pcall) hw, fun imm s himm => ?_⟩
  have hexec : exec (.pcall imm) s = .next (s.trap (imm.signExtend 64)) :=
    if_neg ((sext51_eq_allOnes imm).not.2 himm)
  exact ⟨hexec, fun hfits => ⟨_, hexec, trapSavesContextAndDispatches s _ hfits⟩⟩

/-- Each divide with a zero divisor is `Trap(0)`. -/
theorem exec_of_dividesByZero {s : State} {i : Instr} (h : DividesByZero s i) :
    exec i s = .next (s.trap 0) := by
  cases i
  case udiv rd r1 r2 =>
    have hzero : s.readReg r2 = 0 := h
    rw [exec, execUdiv, hzero, divForm_zero]
  case sdiv rd r1 r2 =>
    have hzero : s.readReg r2 = 0 := h
    rw [exec, execSdiv, hzero, divForm_zero]
  case udivi rd r1 imm => rw [exec, execUdivi, (sext46_eq_zero imm).2 h, divForm_zero]
  case sdivi rd r1 imm => rw [exec, execSdivi, (sext46_eq_zero imm).2 h, divForm_zero]
  all_goals exact h.elim

/-- Settles O20: each of the four is `Trap(0)`, which is taken. -/
theorem divideByZeroTakesTrapZero : Obligations.DivideByZeroTakesTrapZero := by
  intro rd r1 r2 s hfits
  have taken : ∀ i, DividesByZero s i → ∃ t, exec i s = .next t ∧ TrapTaken s t 0 := fun i h =>
    ⟨_, exec_of_dividesByZero h, trapSavesContextAndDispatches s 0 hfits⟩
  exact ⟨fun hzero => ⟨taken (.udiv rd r1 r2) hzero, taken (.sdiv rd r1 r2) hzero⟩,
    taken (.udivi rd r1 0) rfl, taken (.sdivi rd r1 0) rfl⟩

/-! ### The introspection call (R310) -/

/-- The count case writes `x[31]`, then the status register over it. -/
theorem State.introspect_of_count {s : State} (h28 : s.readReg 28 = 0) (h29 : s.readReg 29 = 0) :
    s.introspect = (s.writeReg 31 s.cfg.intCount).writeReg s.cfg.statusReg 2 :=
  if_pos ⟨h28, h29⟩

theorem State.introspect_of_install {s : State} (h28 : s.readReg 28 = 0)
    (h29 : s.readReg 29 = 1) : s.introspect = s.setIntVector (s.readReg 31) := by
  simp [State.introspect, h28, h29]

theorem State.introspect_of_clear {s : State} (h28 : s.readReg 28 = 1) :
    s.introspect = s.writeReg s.cfg.statusReg 0 := by
  simp [State.introspect, h28]

theorem State.introspect_of_other {s : State} (h28 : s.readReg 28 ≠ 1)
    (h29 : s.readReg 28 = 0 → s.readReg 29 ≠ 0 ∧ s.readReg 29 ≠ 1) : s.introspect = s := by
  rw [State.introspect, if_neg fun h => (h29 h.1).1 h.2, if_neg fun h => (h29 h.1).2 h.2,
    if_neg h28]

/-- Settles O39, by the four cases of the call. -/
theorem introspectionCases : Obligations.IntrospectionCases := by
  intro s
  have hexec : exec (.pcall (BitVec.allOnes 51)) s = .next s.introspect := by
    rw [exec, execPcall, if_pos ((sext51_eq_allOnes _).2 rfl)]
  refine ⟨_, hexec, s.introspect_pc, fun a => by rw [s.introspect_mem], s.introspect_halted,
    s.introspect_fault, s.introspect_cfg, s.introspect_haltReq, fun h28 h29 => ?count,
    fun h28 h29 => ?install, fun h28 => ?clear, State.introspect_of_other⟩
  case count =>
    rw [State.introspect_of_count h28 h29]
    refine ⟨rfl, fun r => ?_⟩
    rw [State.readReg_writeReg, State.readReg_writeReg]
    by_cases hr : r = 0
    · rw [if_pos hr, if_pos hr]
    · rw [if_neg hr, if_neg hr, if_neg hr]
  case install =>
    rw [State.introspect_of_install h28 h29]
    exact ⟨rfl, fun r => rfl⟩
  case clear =>
    rw [State.introspect_of_clear h28]
    exact ⟨rfl, fun r => s.readReg_writeReg _ r 0⟩

end Sys2Proof.Machine

/-! PROOFS. The step (spec 40_fetch_decode_dispatch): what a step is in each case of R130, and the
statements on single steps. -/

namespace Sys2Proof.Machine

/-! ### The cases of a step (R130) -/

theorem step_of_halted {s : State} (h : s.halted = true) : step s = .next s :=
  if_pos h

theorem step_of_haltReq {s : State} (hh : s.halted = false) (hr : s.haltReq = true) :
    step s = .next s.halt := by
  simp [step, hh, hr]

theorem step_of_fetch_outOfBounds {s : State} (hh : s.halted = false) (hr : s.haltReq = false)
    (hb : s.cfg.memSize < s.pc.toNat + 8) : step s = .next (s.raiseBounds .fetch s.pc) := by
  have hout : s.fetchInBounds = false :=
    Bool.eq_false_iff.2 (s.fetchInBounds_eq_true_iff.not.2 (by omega))
  simp [step, hh, hr, hout]

/-- A core that fetches an instruction executes it with `pc` advanced and clears `x[0]`. -/
theorem step_of_fetched_instr {s : State} {i : Instr} (hf : s.Fetches) (hd : s.fetched = .instr i) :
    step s = endStep (exec i s.advancePc) := by
  obtain ⟨hh, hr, hb⟩ := hf
  simp [step, hh, hr, s.fetchInBounds_eq_true_iff.2 hb, hd]

/-- Under `nop` a core that fetches an unassigned opcode advances `pc` and clears `x[0]`. -/
theorem step_of_fetched_unassigned {s : State} {op : Byte} (hf : s.Fetches)
    (hd : s.fetched = .unassigned op) (hnop : s.cfg.unknownOpcode = .nop) :
    step s = .next s.advancePc.clearZero := by
  obtain ⟨hh, hr, hb⟩ := hf
  simp [step, hh, hr, s.fetchInBounds_eq_true_iff.2 hb, hd, unassignedOpcode, hnop]

/-- Settles O42, by the three cases of R130 that come before a fetch. -/
theorem stepWithoutAFetchedInstruction : Obligations.StepWithoutAFetchedInstruction := fun s =>
  ⟨step_of_halted, step_of_haltReq, fun hh hr hb =>
    ⟨_, step_of_fetch_outOfBounds hh hr hb, s.faultsAt_raiseBounds _ _⟩⟩

/-- A run goes on from the next state of its first step. -/
theorem core_run_succ_of_next (M : Host.Core) {k : Nat} {s s' : M.State}
    (h : M.step s = .next s') : M.run (k + 1) s = M.run k s' := by
  rw [Host.Core.run, h]

/-- Settles O54, by induction on the number of steps. -/
theorem haltedCoreStaysPut : Obligations.HaltedCoreStaysPut := by
  intro n s h
  induction n with
  | zero => rfl
  | succ n ih =>
    exact (core_run_succ_of_next core (step_of_halted h)).trans ih

/-! ### Steps that execute nothing (R136) -/

/-- Advancing `pc` and clearing `x[0]` changes nothing else that can be read. -/
theorem step_of_unassigned_frame {s : State} {op : Byte} (hf : s.Fetches)
    (hnop : s.cfg.unknownOpcode = .nop) (hd : s.fetched = .unassigned op) :
    ∃ t, step s = .next t ∧ t.pc = s.pc + 8 ∧ SameRegs s t ∧ SameMem s t ∧ SameControl s t :=
  ⟨_, step_of_fetched_unassigned hf hd hnop, rfl, s.advancePc.readReg_clearZero, fun _ => rfl,
    rfl, rfl, rfl, rfl, rfl⟩

/-- Settles O43: the fetched word is the 8 bytes at `pc`, so its dispatch is what the step reads. -/
theorem unassignedOpcodeIsNoOp : Obligations.UnassignedOpcodeIsNoOp :=
  fun _ _ hf hnop hd => step_of_unassigned_frame hf hnop hd

/-- Settles O8: without `INT_DIV` the dispatch table of R108 holds no divide. -/
theorem dividesWithoutIntDivAreNoOps : Obligations.DividesWithoutIntDivAreNoOps := by
  refine ⟨fun s hf hnop hcap hopc hlo hhi => ?_, by decide⟩
  have hd : s.fetched = .unassigned (opOf (s.load s.pc 8)) := by
    rw [State.fetched, dispatch_standard hopc]
    exact if_pos (.inl ⟨hlo, hhi, hcap⟩)
  exact step_of_unassigned_frame hf hnop hd

/-! ### Steps that execute an instruction (R130, R137) -/

/-- What the decoder reads from the fetched word is dispatched where its group is present. -/
theorem State.fetched_of_decodeWith {s : State} {i : Instr}
    (hd : decodeWith s.cfg.opc (s.load s.pc 8) = .instr i)
    (hp : i.mnemonic.presentIn s.cfg.caps = true) : s.fetched = .instr i :=
  (dispatch_of_decodeWith hd).trans (if_pos hp)

/-- Settles O41: a well-formed instruction has its group present, and the end of the step is the
clear of `x[0]`. -/
theorem stepRunsTheDecodedInstruction : Obligations.StepRunsTheDecodedInstruction := by
  intro s i hf hd hwf
  have hstep : step s = endStep (exec i (s.setPc (s.pc + 8))) :=
    step_of_fetched_instr hf (State.fetched_of_decodeWith hd (Bool.and_eq_true_iff.1 hwf).2)
  refine ⟨hstep, fun t ht => ?_⟩
  rw [hstep, ht]
  rfl

/-- An instruction that may divide by zero is of the group `INT_DIV`. -/
theorem DividesByZero.presentIn {s : State} {i : Instr} (h : DividesByZero s i) (caps : Caps) :
    i.mnemonic.presentIn caps = caps.getLsbD 2 := by
  cases i
  case udiv => rfl
  case sdiv => rfl
  case udivi => rfl
  case sdivi => rfl
  all_goals exact h.elim

/-- Whether an instruction divides by zero does not depend on `pc`. -/
theorem dividesByZero_advancePc (s : State) (i : Instr) :
    DividesByZero s.advancePc i ↔ DividesByZero s i := by
  cases i <;> rfl

/-- The clear of `x[0]` at the end of the step is not seen in a trap that was taken. -/
theorem TrapTaken.clearZero {s t : State} {n : Word} (h : TrapTaken s t n) :
    TrapTaken s t.clearZero n := by
  obtain ⟨hslots, hpcSlot, hregs, hpc, hbytes, hcontrol⟩ := h
  exact ⟨hslots, hpcSlot, fun r => (t.readReg_clearZero r).trans (hregs r), hpc, hbytes, hcontrol⟩

/-- Settles O40: the gate of a divide is bit 2 of `CAPS`; bit 3, `SWI`, is asked nowhere. -/
theorem divideTrapIgnoresSwi : Obligations.DivideTrapIgnoresSwi := by
  intro s i hf hcap hd hzero hfits
  have hfetched : s.fetched = .instr i :=
    State.fetched_of_decodeWith hd ((hzero.presentIn _).trans hcap)
  have hstep : step s = .next (s.advancePc.trap 0).clearZero := by
    rw [step_of_fetched_instr hf hfetched,
      exec_of_dividesByZero ((dividesByZero_advancePc s i).2 hzero), endStep_next]
  exact ⟨_, hstep, (trapSavesContextAndDispatches s.advancePc 0 hfits).clearZero⟩

/-! ### The breakpoint output (10_state R52) -/

/-- The model's test for a step that fetches is the one of the statements. -/
theorem State.willFetch_iff (s : State) : s.willFetch = true ↔ s.Fetches := by
  simp only [State.willFetch, Bool.and_eq_true, Bool.not_eq_true', s.fetchInBounds_eq_true_iff,
    and_assoc]

/-- No capability gates `pbreak`, so that it is dispatched exactly where it is decoded. -/
theorem dispatch_eq_pbreak_iff (c : Config) (w : Word) :
    dispatch c w = .instr .pbreak ↔ decodeWith c.opc w = .instr .pbreak := by
  rw [dispatch_eq]
  cases decodeWith c.opc w with
  | unassigned op => rfl
  | instr i =>
    by_cases hp : i.mnemonic.presentIn c.caps = true
    · simp only [hp, if_true]
    · have hne : i ≠ .pbreak := fun e => hp (by rw [e]; rfl)
      simp [hp, hne]

/-- On the map of R108 the words that decode to `pbreak` are those of its opcode. -/
theorem decodeWord_eq_pbreak_iff (w : Word) : decodeWord w = .instr .pbreak ↔ opOf w = 0x3B := by
  refine ⟨fun h => ?_, fun h => decodeWord_of_opOf_eq (m := .pbreak) h⟩
  rcases decodeWord_cases w with ⟨-, i, hi, hop⟩ | ⟨-, hun⟩
  · obtain rfl := Decoded.instr.inj (h.symm.trans hi)
    exact hop.symm
  · rw [h] at hun; cases hun

/-- Settles O34: `break_sig` is the conjunction of the two conditions, on any map. -/
theorem breakSignalMarksPbreak : Obligations.BreakSignalMarksPbreak := by
  intro s
  have hstepping : s.breakSig .stepping = true
      ↔ s.Fetches ∧ decodeWith s.cfg.opc (s.load s.pc 8) = .instr .pbreak := by
    rw [State.breakSig, Bool.and_eq_true, s.willFetch_iff, decide_eq_true_eq, State.fetched,
      dispatch_eq_pbreak_iff]
    rfl
  refine ⟨rfl, hstepping, fun hopc => ?_⟩
  rw [hstepping, hopc]
  exact and_congr_right fun _ => decodeWord_eq_pbreak_iff _

/-! ### Every instruction answers (40_fetch_decode_dispatch R138) -/

theorem divForm_answers (f : Word → Word → Word) (rd : Reg) (a b : Word) (s : State) :
    ∃ t, divForm f rd a b s = .next t := by
  rcases divForm_cases f rd a b s with ⟨-, e⟩ | ⟨-, e⟩ <;> exact ⟨_, e⟩

theorem loadForm_answers (n : Nat) (rd r1 : Reg) (imm : BitVec 46) (s : State) :
    ∃ t, loadForm n rd r1 imm s = .next t := by
  rcases loadForm_cases n rd r1 imm s with ⟨-, e⟩ | ⟨-, e⟩ <;> exact ⟨_, e⟩

theorem storeForm_answers (n : Nat) (rd r1 : Reg) (imm : BitVec 46) (s : State) :
    ∃ t, storeForm n rd r1 imm s = .next t := by
  rcases storeForm_cases n rd r1 imm s with ⟨-, e⟩ | ⟨-, e⟩ <;> exact ⟨_, e⟩

theorem branchForm_answers (cond : Word → Word → Bool) (a b : Reg) (off : BitVec 46) (s : State) :
    ∃ t, branchForm cond a b off s = .next t := by
  rcases branchForm_cases cond a b off s with ⟨-, e⟩ | ⟨-, e⟩ <;> exact ⟨_, e⟩

theorem execPcall_answers (imm : BitVec 51) (s : State) : ∃ t, execPcall imm s = .next t := by
  by_cases h : sext51 imm = BitVec.allOnes 64
  · exact ⟨_, if_pos h⟩
  · exact ⟨_, if_neg h⟩

/-- Every form answers a next state, and so does every instruction. -/
theorem exec_answers (i : Instr) (s : State) : ∃ t, exec i s = .next t := by
  cases i
  case udiv | udivi | sdiv | sdivi => exact divForm_answers _ _ _ _ s
  case ldb | ldh | ldw | ldd => exact loadForm_answers _ _ _ _ s
  case stb | sth | stw | std => exact storeForm_answers _ _ _ _ s
  case je | jne | jgu | jgs | jleu | jles => exact branchForm_answers _ _ _ _ s
  case pcall => exact execPcall_answers _ s
  all_goals exact ⟨_, rfl⟩

/-- Settles O46: a step is a halt, a fault, an instruction or, under `nop`, nothing. -/
theorem everyInstructionAnswersANextState : Obligations.EveryInstructionAnswersANextState := by
  refine ⟨exec_answers, fun s hnop => ?_⟩
  rcases Bool.eq_false_or_eq_true s.halted with hh | hh
  · exact ⟨_, step_of_halted hh⟩
  rcases Bool.eq_false_or_eq_true s.haltReq with hr | hr
  · exact ⟨_, step_of_haltReq hh hr⟩
  rcases Nat.lt_or_ge s.cfg.memSize (s.pc.toNat + 8) with hb | hb
  · exact ⟨_, step_of_fetch_outOfBounds hh hr hb⟩
  cases hd : s.fetched with
  | instr i =>
    obtain ⟨t, ht⟩ := exec_answers i s.advancePc
    exact ⟨_, by rw [step_of_fetched_instr ⟨hh, hr, hb⟩ hd, ht, endStep_next]⟩
  | unassigned op => exact ⟨_, step_of_fetched_unassigned ⟨hh, hr, hb⟩ hd hnop⟩

/-! ### The program counter (10_state R30) -/

/-- A branch whose condition holds adds its offset to `pc`. -/
theorem Branches.pc_of_taken {op : Byte} {mk : Reg → Reg → BitVec 46 → Instr}
    {P : Word → Word → Prop} (h : Branches op mk P) {a b : Reg} {off : BitVec 46} {s u : State}
    (hu : exec (mk a b off) s = .next u) (htaken : P (s.readReg a) (s.readReg b)) :
    u.pc = s.pc + off.signExtend 64 := by
  obtain ⟨-, hexec⟩ := h
  obtain ⟨t, ht, hpc, -⟩ := hexec a b off s
  obtain rfl := Host.Outcome.next.inj (hu.symm.trans ht)
  exact hpc htaken

/-- Settles O45: an instruction that transfers nothing keeps the advanced `pc`, and a taken branch
adds its offset to it. -/
theorem programCounterMonotonicity : Obligations.ProgramCounterMonotonicity := by
  intro s t hf h
  rcases step_cases_of_fetches hf h with ⟨i, u, hd, hu, rfl⟩ | ⟨op, hd, -, rfl⟩
  case inl =>
    rw [hd]
    refine ⟨fun j hj hno => ?stays, nofun, fun a b off hbr => ?branches⟩
    case stays =>
      obtain rfl := Decoded.instr.inj hj
      exact (exec_effect hu).pc_eq ((mayTransfer_advancePc s i).not.2 hno)
    case branches =>
      obtain ⟨hje, hjne, hjgu, hjgs, hjleu, hjles⟩ := branchesFollowTheirConditions
      rcases hbr with ⟨hi, ht⟩ | ⟨hi, ht⟩ | ⟨hi, ht⟩ | ⟨hi, ht⟩ | ⟨hi, ht⟩ | ⟨hi, ht⟩
        <;> cases hi
      · exact hje.pc_of_taken hu ht
      · exact hjne.pc_of_taken hu ht
      · exact hjgu.pc_of_taken hu ht
      · exact hjgs.pc_of_taken hu ht
      · exact hjleu.pc_of_taken hu ht
      · exact hjles.pc_of_taken hu ht
  case inr =>
    rw [hd]
    refine ⟨nofun, fun _ _ => rfl, fun a b off hbr => ?_⟩
    rcases hbr with ⟨hi, -⟩ | ⟨hi, -⟩ | ⟨hi, -⟩ | ⟨hi, -⟩ | ⟨hi, -⟩ | ⟨hi, -⟩ <;> cases hi

/-! ### A store over the next instruction (20_memory R75) -/

/-- Settles O26: the store is done when the next fetch reads, at the address it wrote. -/
theorem storedWordIsFetchedNext : Obligations.StoredWordIsFetchedNext := by
  intro s t rd r1 imm hf hd haddr hroom h
  have haddr' : s.advancePc.effAddr r1 imm = s.pc + 8 := haddr
  have hexec : exec (.std rd r1 imm) s.advancePc
      = .next (s.advancePc.store (s.pc + 8) 8 (s.readReg rd)) := by
    rw [exec, execStd, storeForm_of_inBounds (by rw [haddr']; exact hroom), haddr',
      State.readReg_advancePc]
  rw [step_of_fetched_instr hf hd, hexec, endStep_next] at h
  obtain rfl := Host.Outcome.next.inj h
  obtain ⟨hh, hr, -⟩ := hf
  exact ⟨rfl, s.advancePc.load_store_same (s.pc + 8) (s.readReg rd), hh, hr, hroom⟩

end Sys2Proof.Machine

/-! PROOFS. Launches and the host (spec 70_reset_and_hazards section 1, 10_state section 9): which
launches are fatal, what the others start with, and what a host write keeps. -/

namespace Sys2Proof.Machine

/-! ### Launches (R350 to R357) -/

/-- The launch preconditions of R357 and R7. -/
theorem Launch.ok_iff (l : Launch) : l.ok = true ↔ l.image.length % 8 = 0
    ∧ l.image.length ≤ l.cfg.memSize ∧ 8 ≤ l.cfg.memSize ∧ l.cfg.memSize < 2 ^ 64 := by
  simp only [Launch.ok, Bool.and_eq_true, decide_eq_true_eq, and_assoc]

/-- Settles O58: a launch gives no state exactly where its preconditions fail. -/
theorem fatalLaunches : Obligations.FatalLaunches := by
  intro l
  rw [← l.ok_iff, Launch.start, ite_eq_right_iff]
  exact ⟨fun h hok => Option.some_ne_none _ (h hok), fun h hok => absurd hok h⟩

/-- The cells that `Memory.ofCells` writes, over any memory, keep a bound that each meets. -/
theorem Memory.within_foldl_write {size : Nat} {cells : List Host.Cell}
    (hc : ∀ c ∈ cells, c.1 < size) {m : Memory} (hm : Memory.within size m = true) :
    Memory.within size (cells.foldl (fun m c => Memory.write m c.1 c.2) m) = true := by
  induction cells generalizing m with
  | nil => exact hm
  | cons c cells ih =>
    exact ih (fun d hd => hc d (List.mem_cons_of_mem _ hd))
      (Memory.within_write c.2 hm (hc c List.mem_cons_self))

theorem Memory.within_ofCells {size : Nat} {cells : List Host.Cell}
    (hc : ∀ c ∈ cells, c.1 < size) : Memory.within size (Memory.ofCells cells) = true :=
  Memory.within_foldl_write hc rfl

/-- Cells above a bound do not decide the bytes below it. -/
theorem Memory.read_foldl_write_filter {size : Nat} (cells : List Host.Cell) {m m' : Memory}
    {a : Nat} (ha : a < size) (hm : Memory.read m a = Memory.read m' a) :
    Memory.read ((cells.filter fun c => decide (c.1 < size)).foldl
        (fun m c => Memory.write m c.1 c.2) m) a
      = Memory.read (cells.foldl (fun m c => Memory.write m c.1 c.2) m') a := by
  induction cells generalizing m m' with
  | nil => exact hm
  | cons c cells ih =>
    by_cases hc : c.1 < size
    · rw [List.filter_cons_of_pos (by simpa using hc)]
      refine ih ?_
      rw [Memory.read_write, Memory.read_write, hm]
    · rw [List.filter_cons_of_neg (by simpa using hc)]
      refine ih ?_
      rw [hm, Memory.read_write_other _ _ _ _ (by omega)]

theorem Memory.read_ofCells_filter {size : Nat} (cells : List Host.Cell) {a : Nat} (ha : a < size) :
    Memory.read (Memory.ofCells (cells.filter fun c => decide (c.1 < size))) a
      = Memory.read (Memory.ofCells cells) a :=
  Memory.read_foldl_write_filter cells ha rfl

theorem Launch.wf_memory (l : Launch) : Memory.wf l.memory = true :=
  Memory.wf_writeBytes (Memory.wf_ofCells _) 0 l.image

/-- An image that fits leaves a memory inside the buffer. -/
theorem Launch.within_memory {l : Launch} (h : l.image.length ≤ l.cfg.memSize) :
    Memory.within l.cfg.memSize l.memory = true := by
  refine Memory.within_writeBytes (Memory.within_ofCells fun c hc => ?_) (by omega)
  simpa using (List.mem_filter.1 hc).2

/-- The bytes of a launch's memory: the image, then `MEM_INIT` up to the end of the buffer. -/
theorem Launch.read_memory (l : Launch) (k : Nat) :
    Memory.read l.memory k = if h : k < l.image.length then l.image[k]
      else Memory.read
        (Memory.ofCells (l.memInit.filter fun c => decide (c.1 < l.cfg.memSize))) k := by
  rw [Launch.memory, Memory.read_writeBytes]
  simp only [Nat.zero_le, true_and, Nat.zero_add, Nat.sub_zero]

/-- Settles O57: the image is written last, over the part of `MEM_INIT` that lies in the buffer. -/
theorem launchCopiesTheImage : Obligations.LaunchCopiesTheImage := by
  intro l s h
  obtain ⟨-, rfl⟩ := (l.start_eq_some_iff s).1 h
  refine ⟨fun k hk => ?image, fun k hk hsize => ?memInit⟩
  case image => exact (l.read_memory k).trans (dif_pos hk)
  case memInit =>
    exact ((l.read_memory k).trans (dif_neg (by omega))).trans (Memory.read_ofCells_filter _ hsize)

/-- The registers of a launch (R352, R353): `x[31]` is `ARGC`, the others come from `REG_INIT`. -/
theorem Launch.readReg_of_start {l : Launch} {s : State} (h : l.start = some s) {r : Reg}
    (hr : r ≠ 0) : s.readReg r = if r = 31 then l.argc else l.regInit[r.val] := by
  obtain ⟨-, rfl⟩ := (l.start_eq_some_iff s).1 h
  have h0 : ¬ 0 = r.val := fun e => hr (Fin.ext e.symm)
  rw [State.readReg, if_neg hr]
  by_cases h31 : r = 31
  · subst h31
    exact Vector.getElem_set_self _
  · have hv : ¬ 31 = r.val := fun e => h31 (Fin.ext e.symm)
    rw [if_neg h31, Vector.getElem_set_ne _ _ hv, Vector.getElem_set_ne _ _ h0]

/-- A launch that is not fatal starts in the invariant: its image fits in the buffer. -/
theorem Launch.inv_of_start {l : Launch} {s : State} (h : l.start = some s) : s.Inv := by
  obtain ⟨hok, rfl⟩ := (l.start_eq_some_iff s).1 h
  obtain ⟨-, hfits, -, -⟩ := l.ok_iff.1 hok
  exact ⟨by simp, l.wf_memory, Launch.within_memory hfits, fun hne => absurd rfl hne⟩

/-- Settles O55: every field but the registers, the memory and the configuration is that of
`State.reset`. -/
theorem launchGivesTheResetState : Obligations.LaunchGivesTheResetState := by
  intro l s h
  have hinv := Launch.inv_of_start h
  have hargc : s.readReg 31 = l.argc := Launch.readReg_of_start h (by decide)
  have hregs : ∀ r : Reg, r ≠ 0 → r ≠ 31 → s.readReg r = l.regInit[r.val] := fun r h0 h31 =>
    (Launch.readReg_of_start h h0).trans (if_neg h31)
  obtain ⟨-, rfl⟩ := (l.start_eq_some_iff s).1 h
  exact ⟨hinv, rfl, hargc, rfl, rfl, rfl, rfl, rfl, rfl, hregs⟩

/-! ### Writes by the host (10_state R27, R44, R54) -/

/-- A write to another register leaves the array's entry 0. -/
theorem State.writeReg_regs_zero (s : State) {r : Reg} (hr : r ≠ 0) (v : Word) :
    (s.writeReg r v).regs[0] = s.regs[0] :=
  Vector.getElem_set_ne r.isLt _ fun e => hr (Fin.ext e)

/-- Settles O59, by the six kinds of host write: the two that are refused are those that would break
what is kept. -/
theorem hostWritesKeepTheMachineSound : Obligations.HostWritesKeepTheMachineSound := by
  intro s t w hzero hwf hin h
  cases w with
  | reg r v =>
    rw [State.hostWrite, Option.ite_none_left_eq_some] at h
    obtain ⟨hr, h⟩ := h
    obtain rfl := Option.some_inj.1 h
    exact ⟨(s.writeReg_regs_zero hr v).trans hzero, hwf, hin, rfl, rfl⟩
  | byte a v =>
    rw [State.hostWrite, Option.ite_none_right_eq_some] at h
    obtain ⟨ha, h⟩ := h
    obtain rfl := Option.some_inj.1 h
    exact ⟨hzero, Memory.wf_write hwf a v, Memory.within_write v hin ha, rfl, rfl⟩
  | pc v | intVector v | halted b | haltReq b =>
    obtain rfl := Option.some_inj.1 h
    exact ⟨hzero, hwf, hin, rfl, rfl⟩

end Sys2Proof.Machine
